-- ==== Sys2Proof/Word.lean ====
section
/-! DEFINITION. The widths the spec gives its values (R6, R8, R9, R12), and the one numeral they share. -/

namespace Sys2Proof

/-- One byte of PBUF or of a stream (R57). -/
abbrev Byte := BitVec 8

/-- A PHY-address or register-address input: `ADDR_IN_W = 8` bits (R8, R75, R76). -/
abbrev AddrIn := BitVec 8

/-- A frame header, `HDR` (R71). -/
abbrev Header := BitVec 16

/-- The field `LEN` of a command word: 15 bits (R75). The length register and port have `LEN_W` bits, a parameter (R9): they
are numbers, below `2 ^ LEN_W` (log 8). -/
abbrev Len := BitVec 15

/-- The bound on every byte length a command word can hold: its `LEN` has 15 bits (R9, R75). -/
abbrev lenBound : Nat := 32768

end Sys2Proof
end

