-- ==== Sys2Proof/Syntax.lean ====
section
/-! DEFINITION. The four operations of the block (R3, R80; every row of opcode_table.json), the two ports that take them
and the packed words they arrive in (R70). -/

namespace Sys2Proof

/-- R14: the only two directions. -/
inductive Direction where
  | send
  | receive
  deriving DecidableEq, Repr

/-- R3: the operations. `phy` and `reg` are the port's `ADDR_IN_W` input bits; `len` is the byte count `N` (R78). -/
inductive Instr where
  /-- `ENCODE.S phy, reg` (R90) -/
  | encodeS (phy reg : AddrIn)
  /-- `ENCODE.R phy, reg` (R91) -/
  | encodeR (phy reg : AddrIn)
  /-- `WRITE phy, reg, N` (R110) -/
  | write (phy reg : AddrIn) (len : Nat)
  /-- `READ phy, reg, N` (R130) -/
  | read (phy reg : AddrIn) (len : Nat)
  deriving DecidableEq, Repr

/-- The port that selects an operation's format (R80). -/
inductive Port where
  | encoder
  | command
  deriving DecidableEq, Repr

/-- A packed word on its port (R70): `ENCW` has 17 bits (R76), `CMDW` has 32 (R75). -/
inductive PortWord where
  | encw (w : BitVec 17)
  | cmdw (w : BitVec 32)
  deriving DecidableEq, Repr

end Sys2Proof
end

