-- ==== Sys2Proof/WellFormed.lean ====
section
/-! DEFINITION. Which instructions a packed word can hold: the one operand whose type does not bound it is `N`, a field
of `LEN_W = 15` bits (R75). No value of a field is reserved or illegal (R83). -/

namespace Sys2Proof

/-- `N` fits the length field. -/
def lenFits (n : Nat) : Bool := decide (n < lenBound)

/-- The instruction has an encoding. -/
def Instr.wellFormed : Instr → Bool
  | .encodeS _ _ => true
  | .encodeR _ _ => true
  | .write _ _ n => lenFits n
  | .read _ _ n => lenFits n

end Sys2Proof
end

