-- ==== Sys2Proof/Decode.lean ====
section
/-! DEFINITION. Decoding the packed words (R75, R76, R80), total on any bytes, and the encoder (R85). -/

namespace Sys2Proof

/-- `v[hi:lo]` of an 8-bit field that starts at bit `lo` (R11). -/
def byteField {n : Nat} (w : BitVec n) (lo : Nat) : Byte := w.extractLsb' lo 8

/-- `LEN`, bits 30–16 of CMDW (R75). -/
def cmdwLen (w : BitVec 32) : Len := w.extractLsb' 16 15

/-- The operation on an encoder word: bit 16 selects it (R76, R80). -/
def decodeEncw (w : BitVec 17) : Instr :=
  if w.getLsbD 16 then .encodeR (byteField w 0) (byteField w 8)
  else .encodeS (byteField w 0) (byteField w 8)

/-- The operation on a command word: bit 31 selects it (R75, R80). -/
def decodeCmdw (w : BitVec 32) : Instr :=
  if w.getLsbD 31 then .read (byteField w 0) (byteField w 8) (cmdwLen w).toNat
  else .write (byteField w 0) (byteField w 8) (cmdwLen w).toNat

/-- R80, R83: every word on a port names an operation. -/
def decode : PortWord → Instr
  | .encw w => decodeEncw w
  | .cmdw w => decodeCmdw w

/-- Why bytes are no word of a port (log 18). -/
inductive DecodeError where
  /-- ENCW takes 3 bytes, CMDW 4. -/
  | wrongByteCount
  /-- A bit above bit 16 of the three ENCW bytes is set; ENCW has 17 bits (R76). -/
  | bitsAboveEncw
  deriving DecidableEq, Repr

/-- The number whose bytes these are, least significant byte first (log 18). -/
def natOfBytes : List Byte → Nat
  | [] => 0
  | b :: bs => b.toNat + 256 * natOfBytes bs

/-- The `n` low bytes of `w`, least significant byte first. -/
def bytesOfNat : Nat → Nat → List Byte
  | 0, _ => []
  | n + 1, w => BitVec.ofNat 8 w :: bytesOfNat n (w / 256)

/-- How many bytes a port's word takes. -/
def portBytes : Port → Nat
  | .encoder => 3
  | .command => 4

/-- The word of a port that the number `w` is, if it is one. -/
def portWordOfNat (p : Port) (w : Nat) : Except DecodeError PortWord :=
  match p with
  | .encoder => if w < 2 ^ 17 then .ok (.encw (BitVec.ofNat 17 w)) else .error .bitsAboveEncw
  | .command => .ok (.cmdw (BitVec.ofNat 32 w))

/-- Decode the bytes of one word on a port. -/
def decodeBytes (p : Port) (bs : List Byte) : Except DecodeError Instr :=
  if bs.length = portBytes p then (portWordOfNat p (natOfBytes bs)).map decode
  else .error .wrongByteCount

/-- The port whose format has this many bits: 17 (24 in whole bytes) is ENCW, 32 is CMDW. -/
def portOfBits (nbits : Nat) : Option Port :=
  if nbits ≤ 24 then some .encoder else if nbits ≤ 32 then some .command else none

/-- The instruction the decoder reads from an instruction of the opcode table whose bits are `w`. -/
def decodeTableWord (nbits w : Nat) : Option Instr :=
  match portOfBits nbits with
  | none => none
  | some p =>
    match decodeBytes p (bytesOfNat (portBytes p) w) with
    | .ok i => some i
    | .error _ => none

/-- `ENCW = {DIR, REG, PHY}` (R76). -/
def packEncw (dir : BitVec 1) (reg phy : AddrIn) : BitVec 17 := dir ++ reg ++ phy

/-- `CMDW = {RD, LEN, REG, PHY}` (R75). -/
def packCmdw (rd : BitVec 1) (len : Len) (reg phy : AddrIn) : BitVec 32 := rd ++ len ++ reg ++ phy

/-- The word of a well-formed instruction (R85). -/
def encode : Instr → PortWord
  | .encodeS phy reg => .encw (packEncw 0 reg phy)
  | .encodeR phy reg => .encw (packEncw 1 reg phy)
  | .write phy reg n => .cmdw (packCmdw 0 (BitVec.ofNat 15 n) reg phy)
  | .read phy reg n => .cmdw (packCmdw 1 (BitVec.ofNat 15 n) reg phy)

end Sys2Proof
end

