-- ==== Sys2Proof/Config.lean ====
section
/-! DEFINITION. What an implementation fixes (the parameters `MAX_LEN` and `LEN_W`, R9) and the free values: the spec's `draw()`
(R13), as constants with no body. -/

namespace Sys2Proof

/-- The parameters the spec leaves open (R9, U4, U5). The model carries them in State, so that a statement about every state
is a statement about every `MAX_LEN` and every `LEN_W`; no step changes them (log 7). -/
structure Params where
  /-- `MAX_LEN`, the capacity of PBUF in bytes. -/
  maxLen : Nat
  /-- `LEN_W`, the width in bits of the length port and register. -/
  lenW   : Nat
  deriving DecidableEq, Repr

/-- R9: `MAX_LEN` is even and at least 2, and `2 ^ LEN_W > MAX_LEN`. -/
abbrev Params.Ok (p : Params) : Prop :=
  p.maxLen % 2 = 0 ∧ 2 ≤ p.maxLen ∧ p.maxLen < 2 ^ p.lenW

/-- The parameters the spec's own vectors assume (95_test_vectors.md, "Common assumptions"), with CMDW's `LEN_W` (R75). -/
def Params.vectors : Params := { maxLen := 16, lenW := 15 }

/-- U1, R44, R180: what byte `i` of PBUF holds after reset number `epoch`, until something writes it. A free value:
"every byte of `PBUF` is unspecified. A model gives each one a `draw()`". -/
opaque Config.pbufDraw (epoch i : Nat) : Byte

/-- U2, R137: the `n`-th draw taken by failed READ slices. A free value. -/
opaque Config.sliceDraw (n : Nat) : Byte

end Sys2Proof
end

