-- ==== Sys2Proof/Machine/State.lean ====
section
/-! DEFINITION. The machine's state as plain data: the block's registers and PBUF (R20 to R29), its port inputs (R33,
R36), the parameters (R9), the host and the peer as data (R15), what can be observed (R198), and the counters of free
values; and the reasons a step can stop. -/

namespace Sys2Proof.Machine

/-- R22: the sequencer's seven states. -/
inductive Fsm where
  | idle | txh0 | txh1 | txd0 | txd1 | rxd0 | rxd1
  deriving DecidableEq, Repr

/-- R23: the running command, `0` = WRITE and `1` = READ. -/
inductive Op where
  | write | read
  deriving DecidableEq, Repr

/-- R27: the four values of `STATUS`. -/
inductive Status where
  | none | ok | malformedPayload | transportError
  deriving DecidableEq, Repr

/-- R33: the command port's inputs. `rd` false is WRITE, true is READ. `len` is the number on the `LEN_W` bits of `cmd_len`
(log 8). -/
structure CmdPort where
  valid : Bool
  rd    : Bool
  phy   : AddrIn
  reg   : AddrIn
  len   : Nat
  deriving DecidableEq, Repr

/-- R36: the encoder port's inputs. -/
structure EncPort where
  dir : Direction
  phy : AddrIn
  reg : AddrIn
  deriving DecidableEq, Repr

/-- R35: the status port's outputs. -/
structure StatusPort where
  busy     : Bool
  status   : BitVec 2
  errChunk : Nat
  deriving DecidableEq, Repr

/-- R37, R38: the signals the peer drives in one step. -/
structure PeerSignals where
  txReady : Bool
  txErr   : Bool
  rxValid : Bool
  rxEof   : Bool
  rxErr   : Bool
  rxData  : Byte
  deriving DecidableEq, Repr

/-- R13, R38: the outcome of a `StreamGet`. -/
inductive RxOutcome where
  | byte (v : Byte)
  | eof
  | err
  deriving DecidableEq, Repr

/-- R37: what the peer's transmit signals say of the transfer in progress. -/
inductive TxAnswer where
  /-- neither signal: the transfer waits -/
  | waits
  | ok
  | err
  /-- both signals: refused -/
  | both
  deriving DecidableEq, Repr

/-- R38: what the peer's receive signals say of the transfer in progress. -/
inductive RxAnswer where
  /-- no signal: the transfer waits -/
  | waits
  | got (o : RxOutcome)
  /-- more than one signal: refused -/
  | several
  deriving DecidableEq, Repr

/-- One thing that happened on the duplex stream: a byte delivered (R37) or an answer consumed (R38). -/
inductive StreamEvent where
  | tx (b : Byte)
  | rx (o : RxOutcome)
  deriving DecidableEq, Repr

/-- One step of the host (R16, R85). -/
inductive HostAction where
  /-- `ENCODE.S` or `ENCODE.R`: an encoder word on the encoder port -/
  | encoder (w : BitVec 17)
  /-- offer a command on the command port's fields (R33), with `rd` as R23 codes it; a command word is issued by its fields
  (`issueWord`, R75) -/
  | issue (rd : Bool) (phy reg : AddrIn) (len : Nat)
  /-- hold the offer until it is accepted (R33, R186, log 6) -/
  | hold
  /-- set the command port's inputs to anything at all (R186, R187) -/
  | drive (p : CmdPort)
  /-- `PBW i, b` (R34, `pb_we = 1`). The index is any number: the model gives `pb_addr` no width (log 19) -/
  | pbw (i : Nat) (b : Byte)
  /-- `PBR i` (R34, `pb_we = 0`), the index likewise (log 19) -/
  | pbr (i : Nat)
  /-- `STAT` (R35) -/
  | stat
  /-- `WAIT` (R85) -/
  | wait
  /-- `RST` (R39, R180) -/
  | rst
  deriving DecidableEq, Repr

/-- What one read by the host returned. -/
inductive HostRead where
  /-- `enc_hdr` (R36) -/
  | encHdr (h : Header)
  /-- `pb_rdata` for index `i` (R34) -/
  | pbRdata (i : Nat) (b : Byte)
  /-- the status port's outputs (R35), which STATW packs (`packStatw`) -/
  | status (p : StatusPort)
  deriving DecidableEq, Repr

/-- Whose step comes next (R15, log 2). -/
inductive Turn where
  /-- the host takes its next action -/
  | host
  /-- the sequencer takes an acceptance or the outcome of its transfer -/
  | seq
  /-- the host asserts `rst` in the same step as the sequencer's turn (R160) -/
  | seqReset
  deriving DecidableEq, Repr

/-- PBUF as the bytes written since the last reset, addresses strictly rising (`Memory.wf`). -/
abbrev Memory := List Host.Cell

/-- The whole machine. -/
structure State where
  /-- the parameters `MAX_LEN` and `LEN_W` (R9); no step changes them -/
  params    : Params
  /-- R22 -/
  fsm       : Fsm
  /-- R23, `op_r` -/
  opR       : Op
  /-- R24, `hdr_r` -/
  hdrR      : Header
  /-- R25, `len_r`: a number of `LEN_W` bits (R12; `BlockInv` keeps it below `2 ^ LEN_W`) -/
  lenR      : Nat
  /-- R29, `k_r`: a number of `LEN_W - 1` bits, kept so likewise -/
  kR        : Nat
  /-- R27, `STATUS` -/
  status    : Status
  /-- R28, `ERR_CHUNK`: a number of `LEN_W - 1` bits, kept so likewise -/
  errChunk  : Nat
  /-- R26, `PBUF` -/
  pbuf      : Memory
  /-- R33, the command port's inputs -/
  cmdPort   : CmdPort
  /-- R36, the encoder port's inputs -/
  encPort   : EncPort
  /-- the host's program, next action first -/
  host      : List HostAction
  /-- the peer's signals, one entry for each of its steps, next first -/
  peer      : List PeerSignals
  /-- whose steps come next; when it is empty, the sequencer's -/
  turns     : List Turn
  /-- the duplex stream so far, oldest first -/
  trace     : List StreamEvent
  /-- what the host's reads returned so far, oldest first -/
  hostLog   : List HostRead
  /-- the model's own: the number of resets so far, an argument of `Config.pbufDraw` -/
  pbufEpoch : Nat
  /-- the model's own: the number of draws failed slices took so far, the argument of `Config.sliceDraw` -/
  draws     : Nat
  deriving DecidableEq, Repr

/-- Faults. -/
inductive Fault where
  /-- Raised by a sequencer step that would reach PBUF at an index of `MAX_LEN` or more (R13: "The index `i` must satisfy
  `0 <= i < MAX_LEN`"). No state that keeps the invariant raises it. Safe: the machine stops. -/
  | pbufIndex
  deriving DecidableEq, Repr

/-- Refusals: R156's five, and the name an unmodelled instruction would be refused by. -/
inductive Refusal where
  /-- An arm of `exec` without a meaning; no arm is one. Safe. -/
  | notModelled (mnemonic : String)
  /-- R155: acceptance of WRITE or READ with `cmd_len > MAX_LEN`. Safe: the run stops. -/
  | lenAboveMax
  /-- R188: a host PBUF access while `busy`. Safe. -/
  | pbufBusy
  /-- R189: a host PBUF access at an index of `MAX_LEN` or more. Safe. -/
  | pbufRange
  /-- R38: a receive transfer with more than one of `rx_valid`, `rx_eof`, `rx_err`. Safe. -/
  | rxMultiSignal
  /-- R37: a transmit transfer with both `tx_ready` and `tx_err`. Safe. -/
  | txBothSignals
  deriving DecidableEq, Repr

/-- The machine right after power-on reset (R40 to R44), with the parameters `p`, every port input low, a host with no
program and a peer that answers nothing (log 13). -/
def State.resetWith (p : Params) : State where
  params    := p
  fsm       := .idle
  opR       := .write
  hdrR      := 0
  lenR      := 0
  kR        := 0
  status    := .none
  errChunk  := 0
  pbuf      := []
  cmdPort   := { valid := false, rd := false, phy := 0, reg := 0, len := 0 }
  encPort   := { dir := .send, phy := 0, reg := 0 }
  host      := []
  peer      := []
  turns     := []
  trace     := []
  hostLog   := []
  pbufEpoch := 0
  draws     := 0

/-- The machine right after reset, with the parameters of the spec's vectors (log 7). -/
def State.reset : State := State.resetWith Params.vectors

end Sys2Proof.Machine
end

