-- ==== Sys2Proof/Machine/Operands.lean ====
section
/-! DEFINITION. Operand assembly: the header function (R71, R77, R92), its two bytes (R94), and the ports' inputs as the
packed words give them (R75, R76, R78). -/

namespace Sys2Proof.Machine

/-- R73: the operation code of a direction. -/
def opCode : Direction → Header
  | .send => 0b01
  | .receive => 0b10

/-- R74: the turnaround of a direction. -/
def turnaround : Direction → Header
  | .send => 0b10
  | .receive => 0b00

/-- R77: the low 5 bits of an address input of any width, in 16 bits. -/
def addrField {w : Nat} (a : BitVec w) : Header := a.setWidth 16 &&& 0x1F#16

/-- R92: `encode(d, p, r)`, for address inputs of any width `w` (`ADDR_IN_W`, R8). -/
def encodeHeader {w : Nat} (d : Direction) (p r : BitVec w) : Header :=
  0b01#16 <<< 14 ||| opCode d <<< 12 ||| addrField p <<< 7 ||| addrField r <<< 2 ||| turnaround d

/-- R94: `byte0`, the high byte, sent first. -/
def headerHigh (h : Header) : Byte := h.extractLsb' 8 8

/-- R94: `byte1`, the low byte. -/
def headerLow (h : Header) : Byte := h.extractLsb' 0 8

/-- R33, R75: the command port's inputs while the host offers the word `w`. -/
def cmdPortOfWord (w : BitVec 32) : CmdPort :=
  { valid := true, rd := w.getLsbD 31, phy := byteField w 0, reg := byteField w 8, len := (cmdwLen w).toNat }

/-- R75: the word that packs the command port's inputs, when the length fits its 15 bits. -/
def wordOfCmdPort (p : CmdPort) : BitVec 32 :=
  packCmdw (if p.rd then 1 else 0) (BitVec.ofNat 15 p.len) p.reg p.phy

/-- R80: the operation the command port's inputs name; `cmd_rd` selects it. -/
def offered (p : CmdPort) : Instr :=
  if p.rd then .read p.phy p.reg p.len else .write p.phy p.reg p.len

end Sys2Proof.Machine
end

