-- ==== Sys2Proof/Machine/Flags.lean ====
section
/-! DEFINITION. The status outputs (R27, R30, R35) and the other outputs the block derives from its state (R36, R37,
R38). -/

namespace Sys2Proof.Machine

/-- R30: `busy = (fsm != IDLE)`. -/
def State.busy (s : State) : Bool := s.fsm != .idle

/-- R33: `cmd_ready = (fsm == IDLE)`. -/
def State.cmdReady (s : State) : Bool := s.fsm == .idle

/-- R27: the code of a status. -/
def statusCode : Status → BitVec 2
  | .none => 0
  | .ok => 1
  | .malformedPayload => 2
  | .transportError => 3

/-- R35: the status port's outputs. -/
def State.statusPort (s : State) : StatusPort :=
  { busy := s.busy, status := statusCode s.status, errChunk := s.errChunk }

/-- R35: the status word STATW of the port's outputs, whose field for `ERR_CHUNK` is the one for `LEN_W = 15`. -/
def packStatw (p : StatusPort) : BitVec 32 :=
  0#2 ++ BitVec.ofNat 14 p.errChunk ++ 0#13 ++ BitVec.ofBool p.busy ++ p.status

/-- R35: the status word STATW. -/
def State.statw (s : State) : BitVec 32 := packStatw s.statusPort

/-- R36: `enc_hdr`, a function of the encoder port's inputs alone. -/
def State.encHdr (s : State) : Header := encodeHeader s.encPort.dir s.encPort.phy s.encPort.reg

/-- R36: `enc_byte0`. -/
def State.encByte0 (s : State) : Byte := headerHigh s.encHdr

/-- R36: `enc_byte1`. -/
def State.encByte1 (s : State) : Byte := headerLow s.encHdr

/-- R37: `tx_valid` is high exactly in `TXH0`, `TXH1`, `TXD0` and `TXD1`. -/
def State.txValid (s : State) : Bool :=
  match s.fsm with
  | .txh0 | .txh1 | .txd0 | .txd1 => true
  | .idle | .rxd0 | .rxd1 => false

/-- R38: `rx_ready` is high exactly in `RXD0` and `RXD1`. -/
def State.rxReady (s : State) : Bool :=
  match s.fsm with
  | .rxd0 | .rxd1 => true
  | .idle | .txh0 | .txh1 | .txd0 | .txd1 => false

end Sys2Proof.Machine
end

