-- ==== Sys2Proof/Machine/Ops.lean ====
section
/-! DEFINITION. The named operations over PBUF, the stream and the registers: reading and writing a byte, one transfer,
the two error kinds (the block's only exceptions, R150 to R152), the start and the end of a command, and reset. -/

namespace Sys2Proof.Machine

/-- How a step ends. -/
abbrev Result := Host.Outcome State Fault Refusal

/-! ## PBUF -/

/-- The canonical form of a memory: addresses strictly rising. An unlisted address holds no value of its own (it reads as
a draw), so no entry can equal it (log 9). -/
abbrev Memory.wf (m : Memory) : Prop := List.Pairwise (fun a b => a.1 < b.1) m

/-- The byte listed for `i`. -/
def Memory.read : Memory → Nat → Option Byte
  | [], _ => none
  | (a, b) :: m, i => if a = i then some b else Memory.read m i

/-- List the byte `v` for `i`. -/
def Memory.write : Memory → Nat → Byte → Memory
  | [], i, v => [(i, v)]
  | (a, b) :: m, i, v =>
    if i < a then (i, v) :: (a, b) :: m else if i = a then (i, v) :: m else (a, b) :: Memory.write m i v

/-- `MemRead(i, 1)` (R13): the byte `PBUF[i]`. What an unlisted byte reads as is the draw of the last reset (R44). -/
def State.pbufByte (s : State) (i : Nat) : Byte :=
  match s.pbuf.read i with
  | some b => b
  | none => Config.pbufDraw s.pbufEpoch i

/-- `MemWrite(i, 1, v)` (R13). -/
def State.storeByte (s : State) (i : Nat) (v : Byte) : State := { s with pbuf := s.pbuf.write i v }

/-- The PBUF index of the first byte of the current chunk, `2*k_r` (R56). -/
def State.chunkBase (s : State) : Nat := 2 * s.kR

/-- Both bytes of the current chunk have an index below `MAX_LEN` (R13). -/
def State.chunkInPbuf (s : State) : Bool := decide (s.chunkBase + 1 < s.params.maxLen)

/-! ## Registers and the stream -/

/-- `fsm <- f` (R13). -/
def State.goto (s : State) (f : Fsm) : State := { s with fsm := f }

/-- The peer accepted byte `b` (R37). -/
def State.deliver (s : State) (b : Byte) : State := { s with trace := s.trace ++ [.tx b] }

/-- The peer answered a `StreamGet` with `o` (R38). -/
def State.consume (s : State) (o : RxOutcome) : State := { s with trace := s.trace ++ [.rx o] }

/-- What the host's read returned. -/
def State.record (s : State) (r : HostRead) : State := { s with hostLog := s.hostLog ++ [r] }

/-- The encoder port's inputs (R36). -/
def State.driveEncoder (s : State) (p : EncPort) : State := { s with encPort := p }

/-- The command port's inputs (R33). -/
def State.driveCommand (s : State) (p : CmdPort) : State := { s with cmdPort := p }

/-- The offer on the command port ends with its acceptance (log 4). -/
def State.takeOffer (s : State) : State := { s with cmdPort := { s.cmdPort with valid := false } }

/-! ## Failure, start and end of a command -/

/-- TAKING AN EXCEPTION: the one operation both error kinds share (R150, R151, R152, R161). It saves the kind in `STATUS`
and the chunk index in `ERR_CHUNK`, and `fsm` is `IDLE` after it. There is no return from it (R163). -/
def State.raise (s : State) (kind : Status) (chunk : Nat) : State :=
  { s with status := kind, errChunk := chunk, fsm := .idle }

/-- R151: `raise MalformedPayload(N div 2)`. -/
def State.raiseMalformed (s : State) (n : Nat) : State := s.raise .malformedPayload (n / 2)

/-- R152: `raise TransportError(k_r)`. -/
def State.raiseTransport (s : State) : State := s.raise .transportError s.kR

/-- R111, last branch: the command starts. -/
def State.startCommand (s : State) (op : Op) (phy reg : AddrIn) (n : Nat) : State :=
  { s with
    opR := op, hdrR := encodeHeader .send phy reg, lenR := n, kR := 0,
    status := .none, fsm := .txh0 }

/-- R111, third branch: a command of length 0 is complete at acceptance. -/
def State.completeEmpty (s : State) : State := { s with status := .ok }

/-- R116, first branch: every chunk is done. -/
def State.finish (s : State) : State := { s with fsm := .idle, status := .ok }

/-- R116, second branch: the next chunk, with the same header. -/
def State.nextChunk (s : State) : State := { s with kR := s.kR + 1, fsm := .txh0 }

/-- R116: `EndChunk`. -/
def State.endChunk (s : State) : State :=
  if s.kR + 1 = s.lenR / 2 then s.finish else s.nextChunk

/-- R137, its two `MemWrite`s: both bytes of the failing slice become draws. -/
def State.drawSlice (s : State) : State :=
  { s with
    pbuf := (s.pbuf.write s.chunkBase (Config.sliceDraw s.draws)).write (s.chunkBase + 1)
      (Config.sliceDraw (s.draws + 1)),
    draws := s.draws + 2 }

/-- R137: `RxFail(k_r)`. -/
def State.rxFail (s : State) : State := s.drawSlice.raiseTransport

/-- R180: one assertion of `rst`: every register to its reset value (R40 to R43) and a fresh draw for every byte of PBUF
(R44). It touches no port input, no parameter and nothing of the host or the peer (R45, R46). -/
def State.applyReset (s : State) : State :=
  { s with
    fsm := .idle, opR := .write, hdrR := 0, lenR := 0, kR := 0, status := .none, errChunk := 0,
    pbuf := [], pbufEpoch := s.pbufEpoch + 1 }

/-! ## One transfer -/

/-- R37: the outcome the peer's transmit signals give. -/
def txAnswer (p : PeerSignals) : TxAnswer :=
  match p.txReady, p.txErr with
  | false, false => .waits
  | true, false => .ok
  | false, true => .err
  | true, true => .both

/-- R38: the outcome the peer's receive signals give. -/
def rxAnswer (p : PeerSignals) : RxAnswer :=
  match p.rxValid, p.rxEof, p.rxErr with
  | false, false, false => .waits
  | true, false, false => .got (.byte p.rxData)
  | false, true, false => .got .eof
  | false, false, true => .got .err
  | true, true, _ => .several
  | true, false, true => .several
  | false, true, true => .several

/-- One step of `StreamPut(b)` (R13, R37): on `Ok` the byte is delivered and the state goes on as `onOk` says, on `Err` it
is not delivered and `TransportError(k_r)` is raised; without an outcome the transfer waits. -/
def streamPut (b : Byte) (p : PeerSignals) (onOk : State → State) (s : State) : Result :=
  match txAnswer p with
  | .waits => .next s
  | .ok => .next (onOk (s.deliver b))
  | .err => .next s.raiseTransport
  | .both => .refused .txBothSignals

/-- One step of `StreamGet()` (R13, R38): on `Byte(v)` the byte is stored at index `i` and the state goes on as `onByte`
says, on `Eof` and `Err` the slice fails (R137); without an outcome the transfer waits. -/
def streamGet (i : Nat) (p : PeerSignals) (onByte : State → State) (s : State) : Result :=
  match rxAnswer p with
  | .waits => .next s
  | .got (.byte v) => .next (onByte ((s.consume (.byte v)).storeByte i v))
  | .got .eof => .next (s.consume .eof).rxFail
  | .got .err => .next (s.consume .err).rxFail
  | .several => .refused .rxMultiSignal

/-- R13: a step that reaches the current chunk's bytes in PBUF has both below `MAX_LEN`. -/
def inPbuf (s : State) (r : Result) : Result := if s.chunkInPbuf then r else .fault .pbufIndex

/-- R37: `tx_data` while `tx_valid` is high. -/
def State.txData (s : State) : Option Byte :=
  match s.fsm with
  | .txh0 => some (headerHigh s.hdrR)
  | .txh1 => some (headerLow s.hdrR)
  | .txd0 => some (s.pbufByte s.chunkBase)
  | .txd1 => some (s.pbufByte (s.chunkBase + 1))
  | .idle | .rxd0 | .rxd1 => none

end Sys2Proof.Machine
end

