-- ==== Sys2Proof/Machine/Command.lean ====
section
/-! DEFINITION. The two commands (R110, R130) at their acceptance (R111). What a started command then does, transfer by
transfer, is Machine/Transfer.lean. -/

namespace Sys2Proof.Machine

/-- R111, R158: the acceptance both commands share. While the block is busy the offered command waits (R33, R186). -/
def acceptCommand (op : Op) (phy reg : AddrIn) (n : Nat) (s : State) : Result :=
  if s.busy then .next s
  else if s.params.maxLen < n then .refused .lenAboveMax
  else if n % 2 = 1 then .next (s.raiseMalformed n)
  else if n = 0 then .next s.completeEmpty
  else .next (s.startCommand op phy reg n)

/-- `WRITE phy, reg, N` (R110). -/
def execWrite (phy reg : AddrIn) (n : Nat) (s : State) : Result := acceptCommand .write phy reg n s

/-- `READ phy, reg, N` (R130): its header is the `Send` header too (R10). -/
def execRead (phy reg : AddrIn) (n : Nat) (s : State) : Result := acceptCommand .read phy reg n s

end Sys2Proof.Machine
end

