-- ==== Sys2Proof/Machine/Encoder.lean ====
section
/-! DEFINITION. The header encoder's two operations (R90, R91): the host drives the encoder port and reads `enc_hdr`. -/

namespace Sys2Proof.Machine

/-- R36, R90, R91: apply the encoder port's inputs and read its output. Nothing of the sequencer changes (R93, R194). -/
def useEncoder (p : EncPort) (s : State) : State :=
  let t := s.driveEncoder p
  t.record (.encHdr t.encHdr)

/-- `ENCODE.S phy, reg` (R90). -/
def execEncodeS (phy reg : AddrIn) (s : State) : Result :=
  .next (useEncoder { dir := .send, phy := phy, reg := reg } s)

/-- `ENCODE.R phy, reg` (R91). -/
def execEncodeR (phy reg : AddrIn) (s : State) : Result :=
  .next (useEncoder { dir := .receive, phy := phy, reg := reg } s)

end Sys2Proof.Machine
end

