-- ==== Sys2Proof/Machine/Dispatch.lean ====
section
/-! DEFINITION. The meaning of each operation, one arm per constructor. -/

namespace Sys2Proof.Machine

def exec (i : Instr) (s : State) : Host.Outcome State Fault Refusal :=
  match i with
  | .encodeS phy reg => Sys2Proof.Machine.execEncodeS phy reg s
  | .encodeR phy reg => Sys2Proof.Machine.execEncodeR phy reg s
  | .write phy reg n => Sys2Proof.Machine.execWrite phy reg n s
  | .read phy reg n => Sys2Proof.Machine.execRead phy reg n s

end Sys2Proof.Machine
end

