-- ==== Sys2Proof/Machine/HostPort.lean ====
section
/-! DEFINITION. The host's accesses to PBUF (R34, R188, R189) and the status port (R35), and a reset that falls in the same
step as a transfer (R160). -/

namespace Sys2Proof.Machine

/-- R34: a host PBUF access is made in `IDLE` and below `MAX_LEN`; any other is refused (R188, R189). Of the two refusals
the busy one is taken first (log 17). -/
def hostAccess (i : Nat) (s : State) (t : State) : Result :=
  if s.busy then .refused .pbufBusy
  else if s.params.maxLen ≤ i then .refused .pbufRange
  else .next t

/-- `PBW i, b` (R34, R85). -/
def hostPbw (i : Nat) (b : Byte) (s : State) : Result := hostAccess i s (s.storeByte i b)

/-- `PBR i` (R34, R85). -/
def hostPbr (i : Nat) (s : State) : Result := hostAccess i s (s.record (.pbRdata i (s.pbufByte i)))

/-- `STAT` (R35, R85): allowed at any time, without a side effect on the block. -/
def hostStat (s : State) : State := s.record (.status s.statusPort)

/-- R75: the host's issue of the command word `w`. -/
def issueWord (w : BitVec 32) : HostAction :=
  .issue (w.getLsbD 31) (byteField w 0) (byteField w 8) (cmdwLen w).toNat

/-- R85: the host's actions for an operation's line of a program. A command is issued and held until it is accepted (R186,
log 6); 95_test_vectors.md P2 reads the status right after one. -/
def portActions : Instr → List HostAction
  | .encodeS phy reg => [.encoder (packEncw 0 reg phy)]
  | .encodeR phy reg => [.encoder (packEncw 1 reg phy)]
  | .write phy reg n => [.issue false phy reg n, .hold]
  | .read phy reg n => [.issue true phy reg n, .hold]

/-- R160: reset in the same step as the sequencer's turn. Reset beats everything else: an outcome the peer gives in this
step is not recorded, and no command is accepted in it (log 14). -/
def resetDuring (s : State) : State :=
  if s.busy then { s.applyReset with peer := s.peer.tail } else s.applyReset

end Sys2Proof.Machine
end

