-- ==== Sys2Proof/Machine/Transfer.lean ====
section
/-! DEFINITION. The transfer states of a running command (R112 to R116, R131 to R133): what one step does with the signals
`p` the peer drives in it. -/

namespace Sys2Proof.Machine

/-- R112: `TXH0`, the header's high byte. -/
def stepTxh0 (p : PeerSignals) (s : State) : Result :=
  streamPut (headerHigh s.hdrR) p (fun t => t.goto .txh1) s

/-- R113: where `TXH1` leads. -/
def afterHeader : Op → Fsm
  | .write => .txd0
  | .read => .rxd0

/-- R113: `TXH1`, the header's low byte. -/
def stepTxh1 (p : PeerSignals) (s : State) : Result :=
  streamPut (headerLow s.hdrR) p (fun t => t.goto (afterHeader t.opR)) s

/-- R114: `TXD0`, the chunk's first payload byte. -/
def stepTxd0 (p : PeerSignals) (s : State) : Result :=
  inPbuf s (streamPut (s.pbufByte s.chunkBase) p (fun t => t.goto .txd1) s)

/-- R115: `TXD1`, the chunk's second payload byte, and the end of the chunk. -/
def stepTxd1 (p : PeerSignals) (s : State) : Result :=
  inPbuf s (streamPut (s.pbufByte (s.chunkBase + 1)) p State.endChunk s)

/-- R132: `RXD0`, the slice's first byte. -/
def stepRxd0 (p : PeerSignals) (s : State) : Result :=
  inPbuf s (streamGet s.chunkBase p (fun t => t.goto .rxd1) s)

/-- R133: `RXD1`, the slice's second byte, and the end of the chunk. -/
def stepRxd1 (p : PeerSignals) (s : State) : Result :=
  inPbuf s (streamGet (s.chunkBase + 1) p State.endChunk s)

/-- The transfer of the current state; `IDLE` has none (R22). -/
def transfer (p : PeerSignals) (s : State) : Result :=
  match s.fsm with
  | .idle => .next s
  | .txh0 => stepTxh0 p s
  | .txh1 => stepTxh1 p s
  | .txd0 => stepTxd0 p s
  | .txd1 => stepTxd1 p s
  | .rxd0 => stepRxd0 p s
  | .rxd1 => stepRxd1 p s

end Sys2Proof.Machine
end

