-- ==== Sys2Proof/Machine/Agents.lean ====
section
/-! DEFINITION. One turn of each agent (R15, R16): the sequencer, which takes the word offered on the command port in
`IDLE` and a transfer's outcome elsewhere, and the host, which takes its next action. -/

namespace Sys2Proof.Machine

/-- One turn of the sequencer. In `IDLE` with `cmd_valid` it runs the offered operation (R111), whose offer ends (log 4);
in `IDLE` without it nothing happens. In a transfer state it takes the peer's next signals; a peer with none left never
answers (R192, log 3). -/
def seqTurn (s : State) : Result :=
  match s.fsm with
  | .idle => if s.cmdPort.valid then exec (offered s.cmdPort) s.takeOffer else .next s
  | .txh0 | .txh1 | .txd0 | .txd1 | .rxd0 | .rxd1 =>
    match s.peer with
    | [] => .next s
    | p :: rest => transfer p { s with peer := rest }

/-- One action of the host; `rest` is its program after it. An action that has to wait stays first in the program. -/
def hostAct (a : HostAction) (rest : List HostAction) (s : State) : Result :=
  let t : State := { s with host := rest }
  match a with
  | .encoder w => exec (decode (.encw w)) t
  | .issue rd phy reg len =>
    if s.cmdPort.valid then .next s
    else .next (t.driveCommand { valid := true, rd := rd, phy := phy, reg := reg, len := len })
  | .hold => if s.cmdPort.valid then .next s else .next t
  | .drive p => .next (t.driveCommand p)
  | .pbw i b => hostPbw i b t
  | .pbr i => hostPbr i t
  | .stat => .next (hostStat t)
  | .wait => if s.busy then .next s else .next t
  | .rst => .next t.applyReset

/-- One turn of the host; a host whose program is at its end does nothing. -/
def hostTurn (s : State) : Result :=
  match s.host with
  | [] => .next s
  | a :: rest => hostAct a rest s

/-- The turn `u`. -/
def turn (u : Turn) (s : State) : Result :=
  match u with
  | .host => hostTurn s
  | .seq => seqTurn s
  | .seqReset => .next (resetDuring s)

/-- Whose turn it is; with no turn listed, the sequencer's (log 2). -/
def State.nextTurn (s : State) : Turn :=
  match s.turns with
  | [] => .seq
  | u :: _ => u

/-- The state with that turn taken off the list. -/
def State.dropTurn (s : State) : State := { s with turns := s.turns.tail }

/-- The word `w` placed on the port whose format has `nbits` bits, with the next turn the agent's that runs it: an encoder
word is the host's next action; a command word is offered on the command port. -/
def placeWord (s : State) (nbits w : Nat) : State :=
  match portOfBits nbits, decodeTableWord nbits w with
  | some .encoder, some _ => { s with host := .encoder (BitVec.ofNat 17 w) :: s.host, turns := .host :: s.turns }
  | some .command, some _ => { s with cmdPort := cmdPortOfWord (BitVec.ofNat 32 w), turns := .seq :: s.turns }
  | _, _ => s

end Sys2Proof.Machine
end

