-- ==== Sys2Proof/Machine/Step.lean ====
section
/-! DEFINITION. One step of the machine: the turn of the agent whose turn it is. -/

namespace Sys2Proof.Machine

/-- R16: one step. -/
def step (s : State) : Host.Outcome State Fault Refusal := turn s.nextTurn s.dropTurn

/-- `s` with the word `w` where the next step takes its instruction from (log 1). A command word runs in that step when the
block is idle, as it is after reset; while it is busy the word waits on the port (R33). -/
def State.withFetchWord (s : State) (nbits w : Nat) : State := placeWord s nbits w

end Sys2Proof.Machine
end

