-- ==== Sys2Proof/Safety.lean ====
section
/-! DEFINITION. What the statements speak of: the invariant of the machine (R22 to R29, R190), the stream of a command and
how far it has come (R63, R65), the end of a run and a hang (R198). -/

namespace Sys2Proof.Machine

/-- Nothing of a running command contradicts the rules: its length is even, positive and at most `MAX_LEN` (R111), `k_r` is
in its range (R29), `STATUS` is `NONE` (R190), its header is a `Send` header (R24, R81), and its payload state is its own
kind's (R113). -/
abbrev RunningOk (s : State) : Prop :=
  s.lenR % 2 = 0 ∧ s.lenR ≤ s.params.maxLen ∧ s.kR + 1 ≤ s.lenR / 2 ∧
  s.status = .none ∧ s.hdrR &&& 0xF003#16 = 0x5002#16 ∧
  (s.fsm = .txd0 ∨ s.fsm = .txd1 → s.opR = .write) ∧ (s.fsm = .rxd0 ∨ s.fsm = .rxd1 → s.opR = .read)

/-- The registers kept as numbers fit the widths the spec gives them: `len_r` has `LEN_W` bits, `k_r` and `ERR_CHUNK` have
`LEN_W - 1` (R12, R25, R28, R29). -/
abbrev WidthsOk (s : State) : Prop :=
  s.lenR < 2 ^ s.params.lenW ∧ 2 * s.kR < 2 ^ s.params.lenW ∧ 2 * s.errChunk < 2 ^ s.params.lenW

/-- The invariant: the parameters are ones the spec allows (R9), PBUF is in its canonical form and lists no index of `MAX_LEN`
or more (R26), a running command is as the rules say, and no register has outgrown its width (R12). -/
abbrev BlockInv (s : State) : Prop :=
  s.params.Ok ∧ s.pbuf.wf ∧ (∀ c ∈ s.pbuf, c.1 < s.params.maxLen) ∧ (s.busy = true → RunningOk s) ∧ WidthsOk s

/-- The byte an event delivered on TX. -/
def StreamEvent.sent : StreamEvent → Option Byte
  | .tx b => some b
  | .rx _ => none

/-- The answer an event consumed from RX. -/
def StreamEvent.received : StreamEvent → Option RxOutcome
  | .tx _ => none
  | .rx o => some o

/-- The bytes delivered on TX so far (R198). -/
def State.txBytes (s : State) : List Byte := s.trace.filterMap StreamEvent.sent

/-- The answers consumed from RX so far (R198). -/
def State.rxAnswers (s : State) : List RxOutcome := s.trace.filterMap StreamEvent.received

/-- A payload byte as its command's kind moves it. -/
def payloadEvent : Op → Byte → StreamEvent
  | .write, b => .tx b
  | .read, b => .rx (.byte b)

/-- The stream of chunk `k` (R63, R65): the header's two bytes, then PBUF's two bytes, sent or received. -/
def chunkEvents (op : Op) (hdr : Header) (pbuf : Nat → Byte) (k : Nat) : List StreamEvent :=
  [.tx (headerHigh hdr), .tx (headerLow hdr), payloadEvent op (pbuf (2 * k)), payloadEvent op (pbuf (2 * k + 1))]

/-- The stream of a whole command of `n` bytes (R119, R135): the chunks in rising order. -/
def commandEvents (op : Op) (hdr : Header) (pbuf : Nat → Byte) (n : Nat) : List StreamEvent :=
  (List.range (n / 2)).flatMap (chunkEvents op hdr pbuf)

/-- The stream of the command in `s`'s registers. -/
def State.events (s : State) : List StreamEvent := commandEvents s.opR s.hdrR s.pbufByte s.lenR

/-- How many transfers of its chunk a state comes after. -/
def fsmOffset : Fsm → Nat
  | .idle => 0
  | .txh0 => 0
  | .txh1 => 1
  | .txd0 | .rxd0 => 2
  | .txd1 | .rxd1 => 3

/-- The position of the transfer in progress in the command's stream. -/
def State.position (s : State) : Nat := 4 * s.kR + fsmOffset s.fsm

/-- The stream so far is `pre`, then the running command's own stream up to its position. -/
def Progress (pre : List StreamEvent) (s : State) : Prop := s.trace = pre ++ s.events.take s.position

/-- R198: the host has no further step, neither an action of its program nor a reset listed with the sequencer's turns, and
`fsm = IDLE`. As the rule's words have it, an offer still standing on the command port keeps no run from ending (log 20). -/
abbrev State.ended (s : State) : Prop := s.host = [] ∧ Turn.seqReset ∉ s.turns ∧ s.fsm = .idle

/-- R198: a run with a refusal never counts as a good end. -/
def GoodEnd : Host.Outcome State Fault Refusal → Prop
  | .next s => s.ended
  | .fault _ => False
  | .refused _ => False

/-- The peer's signals `p` give the transfer in progress no outcome (R37, R38). -/
abbrev State.silentUnder (s : State) (p : PeerSignals) : Prop :=
  (s.txValid = true → txAnswer p = .waits) ∧ (s.rxReady = true → rxAnswer p = .waits)

/-- R198: "A state with `fsm != IDLE` and a peer that gives no outcome is a hang": no entry the peer has left gives one. -/
abbrev State.hangs (s : State) : Prop := s.busy = true ∧ ∀ p ∈ s.peer, s.silentUnder p

/-- No reset is still to come. -/
abbrev NoReset (s : State) : Prop := HostAction.rst ∉ s.host ∧ Turn.seqReset ∉ s.turns

/-- This step is a reset (R39, R160). -/
abbrev ResetNow (s : State) : Prop :=
  s.nextTurn = .seqReset ∨ (s.nextTurn = .host ∧ s.host.head? = some .rst)

/-- The host's next action, in this step, is an access to PBUF at index `i` (R34). -/
abbrev HostTouches (s : State) (i : Nat) : Prop :=
  s.nextTurn = .host ∧ (s.host.head? = some (.pbr i) ∨ ∃ b, s.host.head? = some (.pbw i b))

/-- R156: when this step is refused, and why. An access that is both busy and out of range counts as busy (log 17). In a step
that is also a reset the peer's signals are refused by nothing (R160, log 14). -/
def RefusalCause (s : State) : Refusal → Prop
  | .lenAboveMax =>
    s.nextTurn = .seq ∧ s.fsm = .idle ∧ s.cmdPort.valid = true ∧ s.params.maxLen < s.cmdPort.len
  | .pbufBusy => s.busy = true ∧ ∃ i, HostTouches s i
  | .pbufRange => s.busy = false ∧ ∃ i, HostTouches s i ∧ s.params.maxLen ≤ i
  | .rxMultiSignal => s.nextTurn = .seq ∧ s.rxReady = true ∧ ∃ p, s.peer.head? = some p ∧ rxAnswer p = .several
  | .txBothSignals => s.nextTurn = .seq ∧ s.txValid = true ∧ ∃ p, s.peer.head? = some p ∧ txAnswer p = .both
  | _ => False

/-- The state in which the step's turn and the peer's signals `p` of `p :: rest` are used up. -/
abbrev State.used (s : State) (rest : List PeerSignals) : State := { s with turns := s.turns.tail, peer := rest }

/-- A next state put through `f`. -/
def mapNext (f : State → State) : Host.Outcome State Fault Refusal → Host.Outcome State Fault Refusal
  | .next s => .next (f s)
  | .fault r => .fault r
  | .refused r => .refused r

end Sys2Proof.Machine
end

