-- ==== Sys2Proof/Certificates/Slice0/Obligations.lean ====
section
/-! DEFINITION. The statements for the provers. Each docstring names the rule of spec/ it formalises; where a clause is a
choice of the model, it names the log entry. -/

open Sys2Proof Sys2Proof.Machine

/-! ## The header encoder -/

/-- R95: the two most significant bits of every header, and of its first byte, are `01`; for address inputs of any
width. -/
def Obligations.HeaderStartBitsAre01 : Prop :=
  ∀ (w : Nat) (d : Direction) (p r : BitVec w),
    (encodeHeader d p r).extractLsb' 14 2 = 0b01#2 ∧ (headerHigh (encodeHeader d p r)).extractLsb' 6 2 = 0b01#2

/-- R96: the two directions' headers differ by `0x3002`, and bit 0 is 0 in both. -/
def Obligations.HeaderDirectionsDifferBy3002 : Prop :=
  ∀ (w : Nat) (p r : BitVec w), encodeHeader .send p r ^^^ encodeHeader .receive p r = 0x3002#16 ∧
    (encodeHeader .send p r).getLsbD 0 = false ∧ (encodeHeader .receive p r).getLsbD 0 = false

/-- R97: only the low five bits of each address input matter. -/
def Obligations.HeaderMasksAddressInputs : Prop :=
  ∀ (w : Nat) (d : Direction) (p r : BitVec w),
    encodeHeader d p r = encodeHeader d (p &&& BitVec.ofNat w 0x1F) (r &&& BitVec.ofNat w 0x1F)

/-- R92: the header in concatenation form. -/
def Obligations.HeaderIsConcatenation : Prop :=
  ∀ (p r : AddrIn),
    encodeHeader .send p r = (0b01#2 ++ 0b01#2 ++ p.extractLsb' 0 5 ++ r.extractLsb' 0 5 ++ 0b10#2 : BitVec 16) ∧
    encodeHeader .receive p r = (0b01#2 ++ 0b10#2 ++ p.extractLsb' 0 5 ++ r.extractLsb' 0 5 ++ 0b00#2 : BitVec 16)

/-- R98: on five-bit inputs the header is injective, and its fields give the inputs and the direction back. -/
def Obligations.HeaderInjectiveOnFiveBitInputs : Prop :=
  (∀ (d d' : Direction) (p p' r r' : AddrIn), p.toNat < 32 → p'.toNat < 32 → r.toNat < 32 → r'.toNat < 32 →
    encodeHeader d p r = encodeHeader d' p' r' → d = d' ∧ p = p' ∧ r = r') ∧
  (∀ (d : Direction) (p r : AddrIn),
    (encodeHeader d p r).extractLsb' 7 5 = p.extractLsb' 0 5 ∧
    (encodeHeader d p r).extractLsb' 2 5 = r.extractLsb' 0 5 ∧
    ((encodeHeader d p r).extractLsb' 12 2 = 0b01#2 ↔ d = .send) ∧
    ((encodeHeader d p r).extractLsb' 12 2 = 0b10#2 ↔ d = .receive))

/-- R99: the range, the pattern and the number of the headers of each direction. -/
def Obligations.HeaderRangeAndCount : Prop :=
  (∀ p r : AddrIn,
    (0x5002#16 ≤ encodeHeader .send p r ∧ encodeHeader .send p r ≤ 0x5FFE#16 ∧
      encodeHeader .send p r &&& 0xF003#16 = 0x5002#16) ∧
    (0x6000#16 ≤ encodeHeader .receive p r ∧ encodeHeader .receive p r ≤ 0x6FFC#16 ∧
      encodeHeader .receive p r &&& 0xF003#16 = 0x6000#16)) ∧
  (∀ d : Direction, ∃ l : List Header, l.Nodup ∧ l.length = 1024 ∧
    ∀ h, h ∈ l ↔ ∃ p r : AddrIn, encodeHeader d p r = h)

/-- R94: the header's two bytes, the high one first. -/
def Obligations.HeaderBytesAreQuotientAndRemainder : Prop :=
  (∀ h : Header, (headerHigh h).toNat = h.toNat / 256 ∧ (headerLow h).toNat = h.toNat % 256 ∧
    (headerHigh h ++ headerLow h : BitVec 16) = h) ∧
  (∀ s : State, s.encByte0 = headerHigh s.encHdr ∧ s.encByte1 = headerLow s.encHdr)

/-- R90: `ENCODE.S` completes in every state; the host drives the encoder port with `Send` and reads the header. With the
rule's corner cases, its encoding and its example. What the host keeps of the read (log 16) is left open here and stated in
`EncoderFrame`. -/
def Obligations.EncodeSReadsSendHeader : Prop :=
  (∀ (phy reg : AddrIn) (s : State), ∃ (h : Header) (kept : List HostRead),
    h = 0x5002#16 ||| ((phy.setWidth 16 &&& 0x1F#16) <<< 7) ||| ((reg.setWidth 16 &&& 0x1F#16) <<< 2) ∧
    exec (.encodeS phy reg) s =
      .next { s with encPort := { dir := .send, phy := phy, reg := reg }, hostLog := kept } ∧
    ∀ t, exec (.encodeS phy reg) s = .next t →
      t.encHdr = h ∧ t.applyReset.encHdr = h ∧ t.status = s.status ∧ t.errChunk = s.errChunk ∧
      h.getLsbD 0 = false ∧ h.getLsbD 1 = true) ∧
  (∀ w : BitVec 17, w.getLsbD 16 = false → decode (.encw w) = .encodeS (w.extractLsb' 0 8) (w.extractLsb' 8 8)) ∧
  encodeHeader .send 0#8 0#8 = 0x5002#16 ∧ encodeHeader .send 31#8 31#8 = 0x5FFE#16 ∧
  (∀ p r : AddrIn, encodeHeader .send p r = encodeHeader .send (p &&& 0x1F#8) (r &&& 0x1F#8)) ∧
  encodeHeader .send 3#8 3#8 = 0x518E#16 ∧ headerHigh 0x518E#16 = 0x51#8 ∧ headerLow 0x518E#16 = 0x8E#8

/-- R91: `ENCODE.R`, likewise; and the header of a running command is never one of its headers. -/
def Obligations.EncodeRReadsReceiveHeader : Prop :=
  (∀ (phy reg : AddrIn) (s : State), ∃ (h : Header) (kept : List HostRead),
    h = 0x6000#16 ||| ((phy.setWidth 16 &&& 0x1F#16) <<< 7) ||| ((reg.setWidth 16 &&& 0x1F#16) <<< 2) ∧
    exec (.encodeR phy reg) s =
      .next { s with encPort := { dir := .receive, phy := phy, reg := reg }, hostLog := kept } ∧
    ∀ t, exec (.encodeR phy reg) s = .next t →
      t.encHdr = h ∧ t.status = s.status ∧ t.errChunk = s.errChunk ∧ h.extractLsb' 0 2 = 0b00#2) ∧
  (∀ w : BitVec 17, w.getLsbD 16 = true → decode (.encw w) = .encodeR (w.extractLsb' 0 8) (w.extractLsb' 8 8)) ∧
  encodeHeader .receive 0#8 0#8 = 0x6000#16 ∧ encodeHeader .receive 31#8 31#8 = 0x6FFC#16 ∧
  (∀ p r : AddrIn, encodeHeader .receive p r = encodeHeader .receive (p &&& 0x1F#8) (r &&& 0x1F#8)) ∧
  encodeHeader .receive 3#8 3#8 = 0x618C#16 ∧ headerHigh 0x618C#16 = 0x61#8 ∧ headerLow 0x618C#16 = 0x8C#8 ∧
  (∀ s : State, BlockInv s → s.busy = true → ∀ p r : AddrIn, s.hdrR ≠ encodeHeader .receive p r)

/-- R93, R194: the frame of both encoder operations: nothing changes but the encoder port's inputs and what the host has
read, to which the header it reads is added (log 16). -/
def Obligations.EncoderFrame : Prop :=
  ∀ (phy reg : AddrIn) (s t : State),
    (exec (.encodeS phy reg) s = .next t ∨ exec (.encodeR phy reg) s = .next t) →
      t.params = s.params ∧ t.fsm = s.fsm ∧ t.opR = s.opR ∧ t.hdrR = s.hdrR ∧ t.lenR = s.lenR ∧ t.kR = s.kR ∧
      t.status = s.status ∧ t.errChunk = s.errChunk ∧ (∀ i, t.pbufByte i = s.pbufByte i) ∧ t.cmdPort = s.cmdPort ∧
      t.host = s.host ∧ t.peer = s.peer ∧ t.turns = s.turns ∧ t.trace = s.trace ∧
      t.pbufEpoch = s.pbufEpoch ∧ t.draws = s.draws ∧ t.hostLog = s.hostLog ++ [.encHdr t.encHdr]

/-! ## Acceptance of a command -/

/-- R111, R158: a step in which a command is offered and the sequencer is in `IDLE`, in the order of the rule's branches.
The statement leaves open what becomes of the offer on the port (log 4) and of the list of turns (log 2). -/
def Obligations.AcceptanceFollowsItsBranches : Prop :=
  ∀ s : State, s.nextTurn = .seq → s.cmdPort.valid = true → s.fsm = .idle →
    (s.params.maxLen < s.cmdPort.len → step s = .refused .lenAboveMax) ∧
    (s.cmdPort.len ≤ s.params.maxLen → ∃ t c u, step s = .next { t with cmdPort := c, turns := u } ∧
      t = (if s.cmdPort.len % 2 = 1 then
            { s with status := .malformedPayload, errChunk := s.cmdPort.len / 2 }
          else if s.cmdPort.len = 0 then { s with status := .ok }
          else
            { s with
              opR := if s.cmdPort.rd then .read else .write
              hdrR := encodeHeader .send s.cmdPort.phy s.cmdPort.reg
              lenR := s.cmdPort.len, kR := 0, status := .none, fsm := .txh0 }))

/-- R110, R111: `WRITE` completes its acceptance in every idle state whose PBUF can hold `N` bytes: an odd length is
reported, length 0 is done at once, any other starts the command. -/
def Obligations.WriteAcceptanceCompletes : Prop :=
  ∀ (phy reg : AddrIn) (n : Nat) (s : State), s.fsm = .idle → n ≤ s.params.maxLen →
    exec (.write phy reg n) s = .next
      (if n % 2 = 1 then { s with status := .malformedPayload, errChunk := n / 2 }
       else if n = 0 then { s with status := .ok }
       else
        { s with
          opR := .write, hdrR := encodeHeader .send phy reg, lenR := n, kR := 0,
          status := .none, fsm := .txh0 })

/-- R130, R111, R10: `READ` likewise; its header is the `Send` header. -/
def Obligations.ReadAcceptanceCompletes : Prop :=
  ∀ (phy reg : AddrIn) (n : Nat) (s : State), s.fsm = .idle → n ≤ s.params.maxLen →
    exec (.read phy reg n) s = .next
      (if n % 2 = 1 then { s with status := .malformedPayload, errChunk := n / 2 }
       else if n = 0 then { s with status := .ok }
       else
        { s with
          opR := .read, hdrR := encodeHeader .send phy reg, lenR := n, kR := 0,
          status := .none, fsm := .txh0 })

/-- R155, R158: a length above `MAX_LEN` is refused, odd or not. -/
def Obligations.LengthAboveMaxIsRefused : Prop :=
  ∀ (phy reg : AddrIn) (n : Nat) (s : State), s.fsm = .idle → s.params.maxLen < n →
    exec (.write phy reg n) s = .refused .lenAboveMax ∧ exec (.read phy reg n) s = .refused .lenAboveMax

/-- R33, R186: while the block is busy an offered command waits: it has no effect, and the sequencer's turns leave the
command port as it is. -/
def Obligations.OfferedCommandWaitsWhileBusy : Prop :=
  (∀ (phy reg : AddrIn) (n : Nat) (s : State), s.busy = true →
    exec (.write phy reg n) s = .next s ∧ exec (.read phy reg n) s = .next s) ∧
  (∀ s t : State, s.busy = true → s.nextTurn = .seq → step s = .next t → t.cmdPort = s.cmdPort)

/-- R111, R151: the frame of both commands' acceptance: no stream I/O, PBUF unchanged; the working registers change only
when a command starts, `ERR_CHUNK` only on an odd length. -/
def Obligations.AcceptanceFrame : Prop :=
  ∀ (phy reg : AddrIn) (n : Nat) (s t : State),
    (exec (.write phy reg n) s = .next t ∨ exec (.read phy reg n) s = .next t) →
      t.params = s.params ∧ (∀ i, t.pbufByte i = s.pbufByte i) ∧ t.encPort = s.encPort ∧ t.cmdPort = s.cmdPort ∧
      t.host = s.host ∧ t.peer = s.peer ∧ t.turns = s.turns ∧ t.trace = s.trace ∧ t.hostLog = s.hostLog ∧
      t.pbufEpoch = s.pbufEpoch ∧ t.draws = s.draws ∧
      (n % 2 = 0 ∨ s.busy = true → t.errChunk = s.errChunk) ∧
      (n % 2 = 1 ∨ n = 0 ∨ s.busy = true →
        t.fsm = s.fsm ∧ t.opR = s.opR ∧ t.hdrR = s.hdrR ∧ t.lenR = s.lenR ∧ t.kR = s.kR) ∧
      (s.busy = true → t.status = s.status)

/-- R81: for the same address inputs a READ latches the header a WRITE does, and it is a `Send` header. -/
def Obligations.ReadSendsTheHeaderOfWrite : Prop :=
  ∀ (phy reg : AddrIn) (n m : Nat) (s s' t t' : State),
    exec (.write phy reg n) s = .next t → exec (.read phy reg m) s' = .next t' →
    s.fsm = .idle → s'.fsm = .idle → t.fsm = .txh0 → t'.fsm = .txh0 →
      t.hdrR = t'.hdrR ∧ t'.hdrR &&& 0xF003#16 = 0x5002#16 ∧ t.opR = .write ∧ t'.opR = .read

/-! ## The transfer states -/

/-- R112: `TXH0`. What becomes of the list of turns (log 2) and of the peer's entry (log 3) is left open in this statement
and the next three, and stated in `TransferFrame`. -/
def Obligations.Txh0OffersHeaderHighByte : Prop :=
  ∀ (s : State) (p : PeerSignals) (rest : List PeerSignals),
    s.nextTurn = .seq → s.fsm = .txh0 → s.peer = p :: rest →
      (txAnswer p = .ok → ∃ u ps, step s =
        .next { s with turns := u, peer := ps, trace := s.trace ++ [.tx (s.hdrR.extractLsb' 8 8)], fsm := .txh1 }) ∧
      (txAnswer p = .err → ∃ u ps, step s =
        .next { s with turns := u, peer := ps, status := .transportError, errChunk := s.kR, fsm := .idle })

/-- R113: `TXH1`. -/
def Obligations.Txh1OffersHeaderLowByte : Prop :=
  ∀ (s : State) (p : PeerSignals) (rest : List PeerSignals),
    s.nextTurn = .seq → s.fsm = .txh1 → s.peer = p :: rest →
      (txAnswer p = .ok → ∃ u ps, step s =
        .next { s with
          turns := u, peer := ps
          trace := s.trace ++ [.tx (s.hdrR.extractLsb' 0 8)], fsm := if s.opR = .write then .txd0 else .rxd0 }) ∧
      (txAnswer p = .err → ∃ u ps, step s =
        .next { s with turns := u, peer := ps, status := .transportError, errChunk := s.kR, fsm := .idle })

/-- R114: `TXD0`, in a state that keeps the invariant. -/
def Obligations.Txd0OffersFirstPayloadByte : Prop :=
  ∀ (s : State) (p : PeerSignals) (rest : List PeerSignals), BlockInv s →
    s.nextTurn = .seq → s.fsm = .txd0 → s.peer = p :: rest →
      (txAnswer p = .ok → ∃ u ps, step s =
        .next { s with turns := u, peer := ps, trace := s.trace ++ [.tx (s.pbufByte (2 * s.kR))], fsm := .txd1 }) ∧
      (txAnswer p = .err → ∃ u ps, step s =
        .next { s with turns := u, peer := ps, status := .transportError, errChunk := s.kR, fsm := .idle })

/-- R115, R116: `TXD1`, in a state that keeps the invariant: the last chunk ends the command, any other goes on with the
next chunk and the same header. -/
def Obligations.Txd1OffersSecondPayloadByte : Prop :=
  ∀ (s : State) (p : PeerSignals) (rest : List PeerSignals), BlockInv s →
    s.nextTurn = .seq → s.fsm = .txd1 → s.peer = p :: rest →
      (txAnswer p = .ok → s.kR + 1 = s.lenR / 2 → ∃ u ps, step s =
        .next { s with
          turns := u, peer := ps
          trace := s.trace ++ [.tx (s.pbufByte (2 * s.kR + 1))], fsm := .idle, status := .ok }) ∧
      (txAnswer p = .ok → s.kR + 1 ≠ s.lenR / 2 → ∃ u ps, step s =
        .next { s with
          turns := u, peer := ps
          trace := s.trace ++ [.tx (s.pbufByte (2 * s.kR + 1))], fsm := .txh0, kR := s.kR + 1 }) ∧
      (txAnswer p = .err → ∃ u ps, step s =
        .next { s with turns := u, peer := ps, status := .transportError, errChunk := s.kR, fsm := .idle })

/-- R132: `RXD0`, in a state that keeps the invariant: a byte is stored as received (R140); every other byte of PBUF is as
before. -/
def Obligations.Rxd0StoresFirstByte : Prop :=
  ∀ (s : State) (p : PeerSignals) (rest : List PeerSignals) (v : Byte), BlockInv s →
    s.nextTurn = .seq → s.fsm = .rxd0 → s.peer = p :: rest → rxAnswer p = .got (.byte v) →
      ∃ t, step s = .next t ∧
        t = { s.used rest with trace := s.trace ++ [.rx (.byte v)], fsm := .rxd1, pbuf := t.pbuf } ∧
        ∀ i, t.pbufByte i = if i = 2 * s.kR then v else s.pbufByte i

/-- R133, R116: `RXD1`, likewise, and the end of the chunk. -/
def Obligations.Rxd1StoresSecondByte : Prop :=
  ∀ (s : State) (p : PeerSignals) (rest : List PeerSignals) (v : Byte), BlockInv s →
    s.nextTurn = .seq → s.fsm = .rxd1 → s.peer = p :: rest → rxAnswer p = .got (.byte v) →
      ∃ t, step s = .next t ∧
        (s.kR + 1 = s.lenR / 2 →
          t = { s.used rest with trace := s.trace ++ [.rx (.byte v)], fsm := .idle, status := .ok, pbuf := t.pbuf }) ∧
        (s.kR + 1 ≠ s.lenR / 2 →
          t = { s.used rest with trace := s.trace ++ [.rx (.byte v)], fsm := .txh0, kR := s.kR + 1, pbuf := t.pbuf }) ∧
        ∀ i, t.pbufByte i = if i = 2 * s.kR + 1 then v else s.pbufByte i

/-- R137: a failed receive, in either receive state: both bytes of slice `k_r` are two fresh draws, every other byte is as
before, and `TransportError(k_r)` is raised. The draws are the free values of log 10. -/
def Obligations.FailedReceiveDrawsItsSlice : Prop :=
  ∀ (s : State) (p : PeerSignals) (rest : List PeerSignals) (o : RxOutcome), BlockInv s →
    s.nextTurn = .seq → s.fsm = .rxd0 ∨ s.fsm = .rxd1 → s.peer = p :: rest → rxAnswer p = .got o →
    o = .eof ∨ o = .err →
      ∃ t, step s = .next t ∧
        t = { s.used rest with
          trace := s.trace ++ [.rx o], status := .transportError, errChunk := s.kR, fsm := .idle,
          draws := s.draws + 2, pbuf := t.pbuf } ∧
        t.pbufByte (2 * s.kR) = Config.sliceDraw s.draws ∧
        t.pbufByte (2 * s.kR + 1) = Config.sliceDraw (s.draws + 1) ∧
        ∀ i, i ≠ 2 * s.kR → i ≠ 2 * s.kR + 1 → t.pbufByte i = s.pbufByte i

/-- R37, R38: a transfer whose peer raises no signal waits; its turn and the peer's entry are used up. -/
def Obligations.TransferWithoutAnswerWaits : Prop :=
  ∀ (s : State) (p : PeerSignals) (rest : List PeerSignals), BlockInv s →
    s.nextTurn = .seq → s.peer = p :: rest →
      (s.txValid = true ∧ p.txReady = false ∧ p.txErr = false) ∨
        (s.rxReady = true ∧ p.rxValid = false ∧ p.rxEof = false ∧ p.rxErr = false) →
      step s = .next (s.used rest)

/-- The frame of a sequencer step while a command runs: the latched command, the ports, the parameter, the host and what
it has read stay; the turn and the peer's entry are used up (log 2, log 3); PBUF changes only in a receive state, only in
the bytes of slice `k_r`. -/
def Obligations.TransferFrame : Prop :=
  ∀ s t : State, BlockInv s → s.busy = true → s.nextTurn = .seq → step s = .next t →
    t.params = s.params ∧ t.opR = s.opR ∧ t.hdrR = s.hdrR ∧ t.lenR = s.lenR ∧ t.encPort = s.encPort ∧
    t.cmdPort = s.cmdPort ∧ t.host = s.host ∧ t.hostLog = s.hostLog ∧ t.turns = s.turns.tail ∧ t.peer = s.peer.tail ∧
    t.pbufEpoch = s.pbufEpoch ∧
    (∀ i, s.rxReady = false ∨ i ≠ 2 * s.kR ∧ i ≠ 2 * s.kR + 1 → t.pbufByte i = s.pbufByte i) ∧
    (t.status ≠ .transportError → t.errChunk = s.errChunk)

/-! ## Rules about the whole machine -/

/-- R159, R65: a step adds at most one transfer to the stream, a sent byte only while `tx_valid` and a received answer only
while `rx_ready`, and the two are never high together. -/
def Obligations.OneTransferPerStep : Prop :=
  (∀ s t : State, BlockInv s → step s = .next t →
    t.trace = s.trace ∨
    (∃ b, s.nextTurn = .seq ∧ s.txValid = true ∧ s.txData = some b ∧ t.trace = s.trace ++ [.tx b]) ∨
    (∃ o, s.nextTurn = .seq ∧ s.rxReady = true ∧ t.trace = s.trace ++ [.rx o])) ∧
  (∀ s : State, ¬(s.txValid = true ∧ s.rxReady = true))

/-- R117: while a WRITE runs, no step that is not a reset changes PBUF, whatever the outcome. -/
def Obligations.WriteKeepsPbuf : Prop :=
  ∀ s t : State, BlockInv s → s.busy = true → s.opR = .write → ¬ResetNow s → step s = .next t →
    ∀ i, t.pbufByte i = s.pbufByte i

/-- R139: while a READ runs, what PBUF holds does not reach anything else: with any other contents, the sequencer's step
ends the same way and leaves everything but PBUF the same. -/
def Obligations.ReadNeverReadsPbuf : Prop :=
  ∀ (s : State) (m : Memory) (e : Nat), BlockInv s → s.busy = true → s.opR = .read → s.nextTurn = .seq →
    mapNext (fun t => { t with pbuf := [], pbufEpoch := 0 }) (step { s with pbuf := m, pbufEpoch := e }) =
      mapNext (fun t => { t with pbuf := [], pbufEpoch := 0 }) (step s)

/-- R66: a byte of PBUF changes only by a host access in `IDLE`, by a receive state, or by a reset. -/
def Obligations.PbufChangesOnlyByItsOwner : Prop :=
  ∀ (s t : State) (i : Nat), BlockInv s → step s = .next t → t.pbufByte i ≠ s.pbufByte i →
    (s.busy = false ∧ HostTouches s i) ∨ (s.nextTurn = .seq ∧ s.rxReady = true) ∨ ResetNow s

/-- R28, R153, R190: `ERR_CHUNK` changes only on a failure or a reset, and then holds the index of the failing chunk. -/
def Obligations.ErrChunkChangesOnlyOnFailure : Prop :=
  ∀ s t : State, BlockInv s → step s = .next t → t.errChunk ≠ s.errChunk →
    (t.status = .malformedPayload ∧ s.nextTurn = .seq ∧ s.busy = false ∧ s.cmdPort.valid = true ∧
      s.cmdPort.len % 2 = 1 ∧ t.errChunk = s.cmdPort.len / 2) ∨
    (t.status = .transportError ∧ s.nextTurn = .seq ∧ s.busy = true ∧ t.errChunk = s.kR) ∨ (ResetNow s ∧ t.errChunk = 0)

/-- R153: a command that ends, ends in `OK` with `ERR_CHUNK` kept or in `TRANSPORT_ERROR`, unless a reset abandons it. -/
def Obligations.RunningCommandEndsInOneOfItsWays : Prop :=
  ∀ s t : State, BlockInv s → s.busy = true → step s = .next t → t.busy = false →
    (t.status = .ok ∧ t.errChunk = s.errChunk ∧ s.kR + 1 = s.lenR / 2) ∨
    (t.status = .transportError ∧ t.errChunk = s.kR) ∨
    (ResetNow s ∧ t.status = .none ∧ t.errChunk = 0)

/-- R156: a step is refused exactly in the rule's five situations. That a busy host access out of range counts as busy is
log 17. That in a step which is also a reset (R160) the peer's signals are refused by nothing is log 14. -/
def Obligations.RefusalsAreExactlyTheFive : Prop :=
  ∀ (s : State) (r : Refusal), BlockInv s → (step s = .refused r ↔ RefusalCause s r)

/-- R156, last sentence: once a run of this model comes to one of the five situations it is refused for ever: whatever the
host's program, its resets included, the peer and the turns hold after it, every longer run from the same start ends in that
refusal. The form of the record is log 11. -/
def Obligations.RefusedRunStaysRefused : Prop :=
  ∀ (s t : State) (r : Refusal) (m n : Nat), BlockInv s → core.run m s = .next t → RefusalCause t r →
    core.run (m + n + 1) s = .refused r

/-- No state that keeps the invariant faults (log 15). -/
def Obligations.InvariantStatesNeverFault : Prop :=
  ∀ (s : State) (f : Fault), BlockInv s → step s ≠ .fault f

/-- The invariant (R9, R22 to R29, R81, R190) is kept by every step. -/
def Obligations.StepKeepsInvariant : Prop :=
  ∀ s t : State, BlockInv s → step s = .next t → BlockInv t

/-- The invariant holds after reset, for every `MAX_LEN` the spec allows, and of the state the host's interface names. -/
def Obligations.ResetStateHasInvariant : Prop :=
  (∀ p : Params, p.Ok → BlockInv (State.resetWith p)) ∧ BlockInv State.reset

/-! ## Reset -/

/-- R40, R41, R42, R45 (and the values of R43): what a reset leaves in the registers, in every state, after power-on too, and that it leaves
the encoder port, the command port and the parameter alone. -/
def Obligations.ResetSetsRegisters : Prop :=
  (∀ s : State, ResetNow s →
    ∃ t, step s = .next t ∧ t.fsm = .idle ∧ t.status = .none ∧ t.errChunk = 0 ∧
      t.opR = .write ∧ t.hdrR = 0 ∧ t.lenR = 0 ∧ t.kR = 0 ∧ t.encHdr = s.encHdr ∧
      t.encHdr = encodeHeader t.encPort.dir t.encPort.phy t.encPort.reg ∧
      t.params = s.params ∧ t.cmdPort = s.cmdPort ∧ t.encPort = s.encPort) ∧
  State.reset.fsm = .idle ∧ State.reset.status = .none ∧ State.reset.errChunk = 0 ∧
  State.reset.opR = .write ∧ State.reset.hdrR = 0 ∧ State.reset.lenR = 0 ∧ State.reset.kR = 0

/-- R44, R180: nothing of what PBUF held survives a reset, and every byte is a fresh free value after it, the draw of that
reset (log 9). -/
def Obligations.ResetForgetsPbuf : Prop :=
  ∀ s : State, ResetNow s →
    (∀ m : Memory, step { s with pbuf := m } = step s) ∧
    ∃ t, step s = .next t ∧ t.pbufEpoch = s.pbufEpoch + 1 ∧ ∀ i, t.pbufByte i = Config.pbufDraw (s.pbufEpoch + 1) i

/-- R160: a reset in the same step as a transfer wins: the step is the same whatever the peer signals in it, refused
signals included (log 14), but for what remains of the peer's signals, and no outcome reaches `STATUS`. -/
def Obligations.ResetBeatsTransferOutcome : Prop :=
  ∀ (s : State) (ps : List PeerSignals), s.nextTurn = .seqReset →
    mapNext (fun t => { t with peer := [] }) (step { s with peer := ps }) =
      mapNext (fun t => { t with peer := [] }) (step s) ∧
    ∃ t, step { s with peer := ps } = .next t ∧ t.fsm = .idle ∧ t.status = .none ∧ t.errChunk = 0

/-- R181: a reset during a command delivers nothing more and takes nothing back; the command it abandons is over, and the
status port shows nothing of it. That a byte offered in the very step of the reset counts as not delivered, whatever the peer
signals, where R160 leaves it to the peer, is log 14. -/
def Obligations.ResetAbandonsCommand : Prop :=
  ∀ s : State, ResetNow s → ∃ t, step s = .next t ∧ t.trace = s.trace ∧ t.busy = false ∧ t.txValid = false ∧
    t.rxReady = false ∧ t.status = .none ∧ t.statw = 0#32

/-- R182, R192, R172: with a peer that gives no outcome, be it that it has no signals left or that none of those it has left
answers the transfer (log 3), nothing but a reset ends the command: however long the host acts, a run without a reset stays
in the same transfer, with every register and byte of R47's table and the stream as they were, and still hangs (R198). -/
def Obligations.OnlyResetEndsStalledCommand : Prop :=
  ∀ (n : Nat) (s t : State), s.hangs → NoReset s → core.run n s = .next t →
    t.fsm = s.fsm ∧ t.kR = s.kR ∧ t.hdrR = s.hdrR ∧ t.lenR = s.lenR ∧ t.opR = s.opR ∧
    t.status = s.status ∧ t.errChunk = s.errChunk ∧ (∀ i, t.pbufByte i = s.pbufByte i) ∧
    t.trace = s.trace ∧ t.hangs

/-! ## The host's ports -/

/-- R187: changing the command port's inputs after acceptance does not touch the running command. -/
def Obligations.RunningCommandIsLatched : Prop :=
  ∀ (s : State) (c : CmdPort), s.busy = true → s.nextTurn = .seq →
    step { s with cmdPort := c } = mapNext (fun t => { t with cmdPort := c }) (step s)

/-- R34, R188: the PBUF port: in `IDLE` and below `MAX_LEN` a write sets its byte and no other and a read returns it; every
other access is refused, with `PbufBusy` while the block is busy. -/
def Obligations.PbufPortAccess : Prop :=
  ∀ (s : State) (i : Nat) (b : Byte) (rest : List HostAction), s.nextTurn = .host →
    (s.host = .pbw i b :: rest →
      (s.busy = true → step s = .refused .pbufBusy) ∧
      (s.busy = false → s.params.maxLen ≤ i → step s = .refused .pbufRange) ∧
      (s.busy = false → i < s.params.maxLen → ∃ t, step s = .next t ∧
        t = { s with turns := s.turns.tail, host := rest, pbuf := t.pbuf } ∧
        ∀ j, t.pbufByte j = if j = i then b else s.pbufByte j)) ∧
    (s.host = .pbr i :: rest →
      (s.busy = true → step s = .refused .pbufBusy) ∧
      (s.busy = false → s.params.maxLen ≤ i → step s = .refused .pbufRange) ∧
      (s.busy = false → i < s.params.maxLen → step s = .next { s with
        turns := s.turns.tail, host := rest, hostLog := s.hostLog ++ [.pbRdata i (s.pbufByte i)] }))

/-- R35, R27: the codes of STATUS, the fields of STATW (that of `ERR_CHUNK` has 14 bits, and holds it whole for
`LEN_W = 15`), its value after a reset, and that the host may read the status port in any state without an effect on the
block. -/
def Obligations.StatusWordLayoutAndRead : Prop :=
  (statusCode .none = 0 ∧ statusCode .ok = 1 ∧ statusCode .malformedPayload = 2 ∧ statusCode .transportError = 3) ∧
  (∀ s : State, s.statw.extractLsb' 0 2 = statusCode s.status ∧ s.statw.getLsbD 2 = s.busy ∧
    s.statw.extractLsb' 3 13 = 0#13 ∧ s.statw.extractLsb' 16 14 = BitVec.ofNat 14 s.errChunk ∧
    s.statw.extractLsb' 30 2 = 0#2 ∧ s.applyReset.statw = 0#32 ∧
    (BlockInv s → s.params.lenW = 15 → (s.statw.extractLsb' 16 14).toNat = s.errChunk)) ∧
  (∀ (s : State) (rest : List HostAction), s.nextTurn = .host → s.host = .stat :: rest →
    step s = .next { s with
      turns := s.turns.tail, host := rest
      hostLog := s.hostLog ++ [.status { busy := s.busy, status := statusCode s.status, errChunk := s.errChunk }] })

/-- R33, R75, R186: the host's issue of a command puts its fields on the port with `cmd_valid`, in any state of the
sequencer, and holds them steady: an issue waits while an earlier offer still stands (log 5). A command word's fields are its
bits. -/
def Obligations.IssueOffersCommandAndHoldsIt : Prop :=
  (∀ (s : State) (rd : Bool) (phy reg : AddrIn) (len : Nat) (rest : List HostAction),
    s.nextTurn = .host → s.host = .issue rd phy reg len :: rest →
    (s.cmdPort.valid = false → step s = .next { s with
      turns := s.turns.tail, host := rest
      cmdPort := { valid := true, rd := rd, phy := phy, reg := reg, len := len } }) ∧
    (s.cmdPort.valid = true → step s = .next { s with turns := s.turns.tail })) ∧
  (∀ w : BitVec 32, issueWord w =
    .issue (w.getLsbD 31) (w.extractLsb' 0 8) (w.extractLsb' 8 8) (w.extractLsb' 16 15).toNat)

/-- R85, R165: `WAIT` waits until `busy = 0`, and changes nothing. -/
def Obligations.WaitEndsWhenNotBusy : Prop :=
  ∀ (s : State) (rest : List HostAction), s.nextTurn = .host → s.host = .wait :: rest →
    (s.busy = false → step s = .next { s with turns := s.turns.tail, host := rest }) ∧
    (s.busy = true → step s = .next { s with turns := s.turns.tail })

/-! ## Encodings and the step -/

/-- The words the spec writes out for its vectors (95_test_vectors.md sections 2 and 6) decode to the instructions they
stand for. -/
def Obligations.SpecWordsDecode : Prop :=
  decode (.encw 0x00001#17) = .encodeS 1 0 ∧ decode (.encw 0x1FFFF#17) = .encodeR 0xFF 0xFF ∧
  decode (.encw 0x0A2E5#17) = .encodeS 0xE5 0xA2 ∧ decode (.cmdw 0x00020303#32) = .write 3 3 2 ∧
  decode (.cmdw 0x80040303#32) = .read 3 3 4 ∧ decode (.cmdw 0x0002A2E5#32) = .write 0xE5 0xA2 2 ∧
  decode (.cmdw 0x80061F1F#32) = .read 31 31 6

/-- Decoding the word of a well-formed instruction gives the instruction back, every operand at every value. -/
def Obligations.DecodeOfEncodeIsIdentity : Prop :=
  ∀ i : Instr, i.wellFormed = true → decode (encode i) = i

/-- R80, R83: every word on a port is the word of the one well-formed instruction it decodes to. -/
def Obligations.EncodeOfDecodeIsIdentity : Prop :=
  ∀ w : PortWord, (decode w).wellFormed = true ∧ encode (decode w) = w

/-- A step runs the decoded instruction: an encoder word that is the host's next action, and the operation the command
port's inputs name when the sequencer takes its turn in `IDLE`, which is the one the word they pack decodes to where the length
fits that word. Around `exec`, the step uses up the turn, the host's action or the offer (log 4). -/
def Obligations.StepRunsTheDecodedInstruction : Prop :=
  (∀ (s : State) (w : BitVec 17) (rest : List HostAction), s.nextTurn = .host → s.host = .encoder w :: rest →
    step s = exec (decode (.encw w)) { s with turns := s.turns.tail, host := rest }) ∧
  (∀ s : State, s.nextTurn = .seq → s.fsm = .idle → s.cmdPort.valid = true →
    step s = exec (if s.cmdPort.rd then .read s.cmdPort.phy s.cmdPort.reg s.cmdPort.len
        else .write s.cmdPort.phy s.cmdPort.reg s.cmdPort.len)
      { s with turns := s.turns.tail, cmdPort := { s.cmdPort with valid := false } } ∧
    (s.cmdPort.len < lenBound → step s = exec (decode (.cmdw (wordOfCmdPort s.cmdPort)))
      { s with turns := s.turns.tail, cmdPort := { s.cmdPort with valid := false } })) ∧
  (∀ w : BitVec 32, wordOfCmdPort (cmdPortOfWord w) = w)

/-- A word of the opcode table placed by `withFetchWord` is what the next step runs: an encoder word in every state, a
command word in every idle state (log 1). A command word's offer has ended in the state it runs on (log 4). -/
def Obligations.FetchWordRunsNext : Prop :=
  (∀ (s : State) (w : Nat), w < 2 ^ 17 → ∃ i, decodeTableWord 24 w = some i ∧
    step (s.withFetchWord 24 w) = exec i s) ∧
  (∀ (s : State) (w : Nat), w < 2 ^ 32 → s.fsm = .idle → ∃ i, decodeTableWord 32 w = some i ∧
    step (s.withFetchWord 32 w) =
      exec i { s with cmdPort := { cmdPortOfWord (BitVec.ofNat 32 w) with valid := false } })

/-! ## Whole commands -/

/-- R63, R65, R119, R120, R135: the stream of a running command, for every interleaving. If the stream so far is `pre`, then
the command's own stream up to its position, the same holds after any step that leaves the command running; if the step
ends it in `OK`, the whole of the command's stream has been moved; if in `TRANSPORT_ERROR`, nothing more was sent and the
chunk reported is the position's. -/
def Obligations.RunningCommandFollowsItsStream : Prop :=
  ∀ (pre : List StreamEvent) (s t : State), BlockInv s → s.busy = true → Progress pre s → step s = .next t →
    (t.busy = true → Progress pre t) ∧
    (t.busy = false → t.status = .ok → t.trace = pre ++ commandEvents s.opR s.hdrR t.pbufByte s.lenR) ∧
    (t.status = .transportError → t.txBytes = s.txBytes ∧ t.errChunk = s.position / 4)

/-- An acceptance that starts a command starts its stream. -/
def Obligations.AcceptanceStartsItsStream : Prop :=
  ∀ s t : State, BlockInv s → s.busy = false → step s = .next t → t.busy = true →
    Progress s.trace t ∧ t.position = 0

/-- R119: if the peer accepts every byte, a WRITE of even `N > 0` delivers the header and the payload of every chunk, in
order, exactly `4 * (N div 2)` bytes, and ends in `OK` with PBUF as it was. Here the host makes no further step (`turns`
is empty, log 2), and the peer's first `4 * (N div 2)` entries accept. -/
def Obligations.WriteSuccessTrace : Prop :=
  ∀ s : State, BlockInv s → s.fsm = .idle → s.turns = [] → s.cmdPort.valid = true → s.cmdPort.rd = false →
    s.cmdPort.len % 2 = 0 → 0 < s.cmdPort.len → s.cmdPort.len ≤ s.params.maxLen →
    4 * (s.cmdPort.len / 2) ≤ s.peer.length →
    (∀ p ∈ s.peer.take (4 * (s.cmdPort.len / 2)), txAnswer p = .ok) →
    ∃ t hdr, hdr = encodeHeader .send s.cmdPort.phy s.cmdPort.reg ∧
      core.run (1 + 4 * (s.cmdPort.len / 2)) s = .next t ∧
      t.fsm = .idle ∧ t.status = .ok ∧ t.errChunk = s.errChunk ∧ (∀ i, t.pbufByte i = s.pbufByte i) ∧
      t.peer = s.peer.drop (4 * (s.cmdPort.len / 2)) ∧
      t.trace = s.trace ++ ((List.range (s.cmdPort.len / 2)).flatMap fun k =>
        [.tx (headerHigh hdr), .tx (headerLow hdr), .tx (s.pbufByte (2 * k)), .tx (s.pbufByte (2 * k + 1))]) ∧
      t.txBytes.length = s.txBytes.length + 4 * (s.cmdPort.len / 2)

/-- R120: if the `StreamPut` at position `j` of the success trace is the first to fail, exactly the positions before it are
delivered, the command ends in `TRANSPORT_ERROR` with `ERR_CHUNK = j div 4`, and no later byte is offered: the peer's
later entries are left. -/
def Obligations.WriteFailurePrefix : Prop :=
  ∀ (s : State) (j : Nat) (bad : PeerSignals), BlockInv s → s.fsm = .idle → s.turns = [] → s.cmdPort.valid = true →
    s.cmdPort.rd = false → s.cmdPort.len % 2 = 0 → s.cmdPort.len ≤ s.params.maxLen →
    j < 4 * (s.cmdPort.len / 2) → (∀ p ∈ s.peer.take j, txAnswer p = .ok) → s.peer[j]? = some bad →
    txAnswer bad = .err →
    ∃ t hdr, hdr = encodeHeader .send s.cmdPort.phy s.cmdPort.reg ∧ core.run (j + 2) s = .next t ∧
      t.fsm = .idle ∧ t.status = .transportError ∧ t.errChunk = j / 4 ∧
      (∀ i, t.pbufByte i = s.pbufByte i) ∧ t.peer = s.peer.drop (j + 1) ∧
      t.trace = s.trace ++ ((List.range (s.cmdPort.len / 2)).flatMap fun k =>
        [StreamEvent.tx (headerHigh hdr), .tx (headerLow hdr), .tx (s.pbufByte (2 * k)),
          .tx (s.pbufByte (2 * k + 1))]).take j

/-- R135: if the peer accepts every header byte and answers every `StreamGet` with a byte, a READ of even `N > 0` sends its
header once per slice, consumes exactly `N` bytes, stores the `i`-th one at index `i`, leaves the rest of PBUF and of the
peer's signals (R136), and ends in `OK`. Entry `4*k + 2 + j` of the peer answers the `StreamGet` of byte `2*k + j`. -/
def Obligations.ReadSuccessTrace : Prop :=
  ∀ (s : State) (rx : Nat → Byte), BlockInv s → s.fsm = .idle → s.turns = [] → s.cmdPort.valid = true →
    s.cmdPort.rd = true → s.cmdPort.len % 2 = 0 → 0 < s.cmdPort.len →
    s.cmdPort.len ≤ s.params.maxLen →
    (∀ k < s.cmdPort.len / 2, ∃ p0 p1 p2 p3,
      s.peer[4 * k]? = some p0 ∧ s.peer[4 * k + 1]? = some p1 ∧ s.peer[4 * k + 2]? = some p2 ∧
      s.peer[4 * k + 3]? = some p3 ∧ txAnswer p0 = .ok ∧ txAnswer p1 = .ok ∧
      rxAnswer p2 = .got (.byte (rx (2 * k))) ∧ rxAnswer p3 = .got (.byte (rx (2 * k + 1)))) →
    ∃ t hdr, hdr = encodeHeader .send s.cmdPort.phy s.cmdPort.reg ∧
      core.run (1 + 4 * (s.cmdPort.len / 2)) s = .next t ∧
      t.fsm = .idle ∧ t.status = .ok ∧ t.errChunk = s.errChunk ∧
      t.peer = s.peer.drop (4 * (s.cmdPort.len / 2)) ∧
      (∀ i, t.pbufByte i = if i < s.cmdPort.len then rx i else s.pbufByte i) ∧
      t.trace = s.trace ++ ((List.range (s.cmdPort.len / 2)).flatMap fun k =>
        [.tx (headerHigh hdr), .tx (headerLow hdr), .rx (.byte (rx (2 * k))), .rx (.byte (rx (2 * k + 1)))]) ∧
      t.txBytes.length = s.txBytes.length + 2 * (s.cmdPort.len / 2) ∧
      t.rxAnswers.length = s.rxAnswers.length + s.cmdPort.len

/-- R33, R186: the host's hold of an offer ends with its acceptance (log 4, log 6), and changes nothing. The lines WRITE and
READ of a program (R85) are an issue and such a hold; the other two are an encoder word, the encoding of the line. -/
def Obligations.HoldEndsWithAcceptance : Prop :=
  (∀ (s : State) (rest : List HostAction), s.nextTurn = .host → s.host = .hold :: rest →
    (s.cmdPort.valid = false → step s = .next { s with turns := s.turns.tail, host := rest }) ∧
    (s.cmdPort.valid = true → step s = .next { s with turns := s.turns.tail })) ∧
  (∀ i : Instr, i.wellFormed = true →
    (∀ w, encode i = .encw w → portActions i = [.encoder w]) ∧
    (∀ w, encode i = .cmdw w → portActions i = [issueWord w, .hold]))

/-- R198: a run that has ended, with no offer standing (log 20), goes on for ever without a change of the final observation:
`STATUS`, `ERR_CHUNK`, PBUF, and the bytes sent and answers received. -/
def Obligations.EndedRunKeepsFinalObservation : Prop :=
  ∀ (n : Nat) (s : State), s.ended → s.cmdPort.valid = false → ∃ t, core.run n s = .next t ∧ GoodEnd (core.run n s) ∧
    t.status = s.status ∧ t.errChunk = s.errChunk ∧ (∀ i, t.pbufByte i = s.pbufByte i) ∧
    t.txBytes = s.txBytes ∧ t.rxAnswers = s.rxAnswers
end

