-- ==== Sys2Proof/Laws/Header.lean ====
section
/-! SUPPORT. The header function bit by bit (R71, R92): the lemmas its laws (R95 to R99) follow from. -/

namespace Sys2Proof.Machine

theorem addrField_getLsbD {w : Nat} (a : BitVec w) (i : Nat) :
    (addrField a).getLsbD i = (decide (i < 5) && a.getLsbD i) := by
  simp only [addrField, BitVec.getLsbD_and, BitVec.getLsbD_setWidth]
  by_cases h : i < 16
  · have : ∀ j < 16, (0x1F#16).getLsbD j = decide (j < 5) := by decide
    simp only [this i h, h, decide_true, Bool.true_and, Bool.and_comm]
  · have h5 : ¬ i < 5 := by omega
    simp [h, h5]

/-- R92, in concatenation form: `{2'b01, op[1:0], p[4:0], r[4:0], ta[1:0]}`. -/
theorem encodeHeader_eq_append {w : Nat} (d : Direction) (p r : BitVec w) :
    encodeHeader d p r =
      (0b01#2 ++ (opCode d).setWidth 2 ++ p.setWidth 5 ++ r.setWidth 5 ++ (turnaround d).setWidth 2 : BitVec 16) := by
  apply BitVec.eq_of_getLsbD_eq
  intro i hi
  simp only [encodeHeader, BitVec.getLsbD_or, BitVec.getLsbD_shiftLeft, addrField_getLsbD, BitVec.getLsbD_append,
    BitVec.getLsbD_setWidth]
  cases d <;> interval_cases i <;> simp [opCode, turnaround]

/-- R71, R92: the header's five fields. -/
theorem encodeHeader_fields {w : Nat} (d : Direction) (p r : BitVec w) :
    (encodeHeader d p r).extractLsb' 14 2 = 0b01#2 ∧
    (encodeHeader d p r).extractLsb' 12 2 = (opCode d).setWidth 2 ∧
    (encodeHeader d p r).extractLsb' 7 5 = p.setWidth 5 ∧
    (encodeHeader d p r).extractLsb' 2 5 = r.setWidth 5 ∧
    (encodeHeader d p r).extractLsb' 0 2 = (turnaround d).setWidth 2 := by
  rw [encodeHeader_eq_append]
  refine ⟨?_, ?_, ?_, ?_, ?_⟩ <;>
    · apply BitVec.eq_of_getLsbD_eq
      intro i hi
      simp only [BitVec.getLsbD_extractLsb', BitVec.getLsbD_append, BitVec.getLsbD_setWidth]
      interval_cases i <;> simp

/-- R79, R81: every `Send` header has the `Send` pattern. -/
theorem encodeHeader_send_pattern {w : Nat} (p r : BitVec w) :
    encodeHeader .send p r &&& 0xF003#16 = 0x5002#16 := by
  rw [encodeHeader_eq_append]
  apply BitVec.eq_of_getLsbD_eq
  intro i hi
  simp only [BitVec.getLsbD_and, BitVec.getLsbD_append, BitVec.getLsbD_setWidth]
  interval_cases i <;> simp [opCode, turnaround]

/-- R94: the two bytes give the header back, high byte first. -/
theorem headerHigh_append_headerLow (h : Header) : (headerHigh h ++ headerLow h : BitVec 16) = h := by
  apply BitVec.eq_of_getLsbD_eq
  intro i hi
  simp only [headerHigh, headerLow, BitVec.getLsbD_append, BitVec.getLsbD_extractLsb']
  interval_cases i <;> simp

end Sys2Proof.Machine
end

