-- ==== Sys2Proof/Laws/State.lean ====
section
/-! SUPPORT. One lemma for each field of State and each named update: what the field holds after it. -/

namespace Sys2Proof.Machine

variable (s : State)

/-! ### storeByte -/

@[simp] theorem State.storeByte_params (i : Nat) (v : Byte) : (s.storeByte i v).params = s.params := rfl
@[simp] theorem State.storeByte_fsm (i : Nat) (v : Byte) : (s.storeByte i v).fsm = s.fsm := rfl
@[simp] theorem State.storeByte_opR (i : Nat) (v : Byte) : (s.storeByte i v).opR = s.opR := rfl
@[simp] theorem State.storeByte_hdrR (i : Nat) (v : Byte) : (s.storeByte i v).hdrR = s.hdrR := rfl
@[simp] theorem State.storeByte_lenR (i : Nat) (v : Byte) : (s.storeByte i v).lenR = s.lenR := rfl
@[simp] theorem State.storeByte_kR (i : Nat) (v : Byte) : (s.storeByte i v).kR = s.kR := rfl
@[simp] theorem State.storeByte_status (i : Nat) (v : Byte) : (s.storeByte i v).status = s.status := rfl
@[simp] theorem State.storeByte_errChunk (i : Nat) (v : Byte) : (s.storeByte i v).errChunk = s.errChunk := rfl
@[simp] theorem State.storeByte_pbuf (i : Nat) (v : Byte) : (s.storeByte i v).pbuf = s.pbuf.write i v := rfl
@[simp] theorem State.storeByte_cmdPort (i : Nat) (v : Byte) : (s.storeByte i v).cmdPort = s.cmdPort := rfl
@[simp] theorem State.storeByte_encPort (i : Nat) (v : Byte) : (s.storeByte i v).encPort = s.encPort := rfl
@[simp] theorem State.storeByte_host (i : Nat) (v : Byte) : (s.storeByte i v).host = s.host := rfl
@[simp] theorem State.storeByte_peer (i : Nat) (v : Byte) : (s.storeByte i v).peer = s.peer := rfl
@[simp] theorem State.storeByte_turns (i : Nat) (v : Byte) : (s.storeByte i v).turns = s.turns := rfl
@[simp] theorem State.storeByte_trace (i : Nat) (v : Byte) : (s.storeByte i v).trace = s.trace := rfl
@[simp] theorem State.storeByte_hostLog (i : Nat) (v : Byte) : (s.storeByte i v).hostLog = s.hostLog := rfl
@[simp] theorem State.storeByte_pbufEpoch (i : Nat) (v : Byte) : (s.storeByte i v).pbufEpoch = s.pbufEpoch := rfl
@[simp] theorem State.storeByte_draws (i : Nat) (v : Byte) : (s.storeByte i v).draws = s.draws := rfl

/-! ### goto -/

@[simp] theorem State.goto_params (f : Fsm) : (s.goto f).params = s.params := rfl
@[simp] theorem State.goto_fsm (f : Fsm) : (s.goto f).fsm = f := rfl
@[simp] theorem State.goto_opR (f : Fsm) : (s.goto f).opR = s.opR := rfl
@[simp] theorem State.goto_hdrR (f : Fsm) : (s.goto f).hdrR = s.hdrR := rfl
@[simp] theorem State.goto_lenR (f : Fsm) : (s.goto f).lenR = s.lenR := rfl
@[simp] theorem State.goto_kR (f : Fsm) : (s.goto f).kR = s.kR := rfl
@[simp] theorem State.goto_status (f : Fsm) : (s.goto f).status = s.status := rfl
@[simp] theorem State.goto_errChunk (f : Fsm) : (s.goto f).errChunk = s.errChunk := rfl
@[simp] theorem State.goto_pbuf (f : Fsm) : (s.goto f).pbuf = s.pbuf := rfl
@[simp] theorem State.goto_cmdPort (f : Fsm) : (s.goto f).cmdPort = s.cmdPort := rfl
@[simp] theorem State.goto_encPort (f : Fsm) : (s.goto f).encPort = s.encPort := rfl
@[simp] theorem State.goto_host (f : Fsm) : (s.goto f).host = s.host := rfl
@[simp] theorem State.goto_peer (f : Fsm) : (s.goto f).peer = s.peer := rfl
@[simp] theorem State.goto_turns (f : Fsm) : (s.goto f).turns = s.turns := rfl
@[simp] theorem State.goto_trace (f : Fsm) : (s.goto f).trace = s.trace := rfl
@[simp] theorem State.goto_hostLog (f : Fsm) : (s.goto f).hostLog = s.hostLog := rfl
@[simp] theorem State.goto_pbufEpoch (f : Fsm) : (s.goto f).pbufEpoch = s.pbufEpoch := rfl
@[simp] theorem State.goto_draws (f : Fsm) : (s.goto f).draws = s.draws := rfl

/-! ### deliver -/

@[simp] theorem State.deliver_params (b : Byte) : (s.deliver b).params = s.params := rfl
@[simp] theorem State.deliver_fsm (b : Byte) : (s.deliver b).fsm = s.fsm := rfl
@[simp] theorem State.deliver_opR (b : Byte) : (s.deliver b).opR = s.opR := rfl
@[simp] theorem State.deliver_hdrR (b : Byte) : (s.deliver b).hdrR = s.hdrR := rfl
@[simp] theorem State.deliver_lenR (b : Byte) : (s.deliver b).lenR = s.lenR := rfl
@[simp] theorem State.deliver_kR (b : Byte) : (s.deliver b).kR = s.kR := rfl
@[simp] theorem State.deliver_status (b : Byte) : (s.deliver b).status = s.status := rfl
@[simp] theorem State.deliver_errChunk (b : Byte) : (s.deliver b).errChunk = s.errChunk := rfl
@[simp] theorem State.deliver_pbuf (b : Byte) : (s.deliver b).pbuf = s.pbuf := rfl
@[simp] theorem State.deliver_cmdPort (b : Byte) : (s.deliver b).cmdPort = s.cmdPort := rfl
@[simp] theorem State.deliver_encPort (b : Byte) : (s.deliver b).encPort = s.encPort := rfl
@[simp] theorem State.deliver_host (b : Byte) : (s.deliver b).host = s.host := rfl
@[simp] theorem State.deliver_peer (b : Byte) : (s.deliver b).peer = s.peer := rfl
@[simp] theorem State.deliver_turns (b : Byte) : (s.deliver b).turns = s.turns := rfl
@[simp] theorem State.deliver_trace (b : Byte) : (s.deliver b).trace = s.trace ++ [.tx b] := rfl
@[simp] theorem State.deliver_hostLog (b : Byte) : (s.deliver b).hostLog = s.hostLog := rfl
@[simp] theorem State.deliver_pbufEpoch (b : Byte) : (s.deliver b).pbufEpoch = s.pbufEpoch := rfl
@[simp] theorem State.deliver_draws (b : Byte) : (s.deliver b).draws = s.draws := rfl

/-! ### consume -/

@[simp] theorem State.consume_params (o : RxOutcome) : (s.consume o).params = s.params := rfl
@[simp] theorem State.consume_fsm (o : RxOutcome) : (s.consume o).fsm = s.fsm := rfl
@[simp] theorem State.consume_opR (o : RxOutcome) : (s.consume o).opR = s.opR := rfl
@[simp] theorem State.consume_hdrR (o : RxOutcome) : (s.consume o).hdrR = s.hdrR := rfl
@[simp] theorem State.consume_lenR (o : RxOutcome) : (s.consume o).lenR = s.lenR := rfl
@[simp] theorem State.consume_kR (o : RxOutcome) : (s.consume o).kR = s.kR := rfl
@[simp] theorem State.consume_status (o : RxOutcome) : (s.consume o).status = s.status := rfl
@[simp] theorem State.consume_errChunk (o : RxOutcome) : (s.consume o).errChunk = s.errChunk := rfl
@[simp] theorem State.consume_pbuf (o : RxOutcome) : (s.consume o).pbuf = s.pbuf := rfl
@[simp] theorem State.consume_cmdPort (o : RxOutcome) : (s.consume o).cmdPort = s.cmdPort := rfl
@[simp] theorem State.consume_encPort (o : RxOutcome) : (s.consume o).encPort = s.encPort := rfl
@[simp] theorem State.consume_host (o : RxOutcome) : (s.consume o).host = s.host := rfl
@[simp] theorem State.consume_peer (o : RxOutcome) : (s.consume o).peer = s.peer := rfl
@[simp] theorem State.consume_turns (o : RxOutcome) : (s.consume o).turns = s.turns := rfl
@[simp] theorem State.consume_trace (o : RxOutcome) : (s.consume o).trace = s.trace ++ [.rx o] := rfl
@[simp] theorem State.consume_hostLog (o : RxOutcome) : (s.consume o).hostLog = s.hostLog := rfl
@[simp] theorem State.consume_pbufEpoch (o : RxOutcome) : (s.consume o).pbufEpoch = s.pbufEpoch := rfl
@[simp] theorem State.consume_draws (o : RxOutcome) : (s.consume o).draws = s.draws := rfl

/-! ### record -/

@[simp] theorem State.record_params (r : HostRead) : (s.record r).params = s.params := rfl
@[simp] theorem State.record_fsm (r : HostRead) : (s.record r).fsm = s.fsm := rfl
@[simp] theorem State.record_opR (r : HostRead) : (s.record r).opR = s.opR := rfl
@[simp] theorem State.record_hdrR (r : HostRead) : (s.record r).hdrR = s.hdrR := rfl
@[simp] theorem State.record_lenR (r : HostRead) : (s.record r).lenR = s.lenR := rfl
@[simp] theorem State.record_kR (r : HostRead) : (s.record r).kR = s.kR := rfl
@[simp] theorem State.record_status (r : HostRead) : (s.record r).status = s.status := rfl
@[simp] theorem State.record_errChunk (r : HostRead) : (s.record r).errChunk = s.errChunk := rfl
@[simp] theorem State.record_pbuf (r : HostRead) : (s.record r).pbuf = s.pbuf := rfl
@[simp] theorem State.record_cmdPort (r : HostRead) : (s.record r).cmdPort = s.cmdPort := rfl
@[simp] theorem State.record_encPort (r : HostRead) : (s.record r).encPort = s.encPort := rfl
@[simp] theorem State.record_host (r : HostRead) : (s.record r).host = s.host := rfl
@[simp] theorem State.record_peer (r : HostRead) : (s.record r).peer = s.peer := rfl
@[simp] theorem State.record_turns (r : HostRead) : (s.record r).turns = s.turns := rfl
@[simp] theorem State.record_trace (r : HostRead) : (s.record r).trace = s.trace := rfl
@[simp] theorem State.record_hostLog (r : HostRead) : (s.record r).hostLog = s.hostLog ++ [r] := rfl
@[simp] theorem State.record_pbufEpoch (r : HostRead) : (s.record r).pbufEpoch = s.pbufEpoch := rfl
@[simp] theorem State.record_draws (r : HostRead) : (s.record r).draws = s.draws := rfl

/-! ### driveEncoder -/

@[simp] theorem State.driveEncoder_params (p : EncPort) : (s.driveEncoder p).params = s.params := rfl
@[simp] theorem State.driveEncoder_fsm (p : EncPort) : (s.driveEncoder p).fsm = s.fsm := rfl
@[simp] theorem State.driveEncoder_opR (p : EncPort) : (s.driveEncoder p).opR = s.opR := rfl
@[simp] theorem State.driveEncoder_hdrR (p : EncPort) : (s.driveEncoder p).hdrR = s.hdrR := rfl
@[simp] theorem State.driveEncoder_lenR (p : EncPort) : (s.driveEncoder p).lenR = s.lenR := rfl
@[simp] theorem State.driveEncoder_kR (p : EncPort) : (s.driveEncoder p).kR = s.kR := rfl
@[simp] theorem State.driveEncoder_status (p : EncPort) : (s.driveEncoder p).status = s.status := rfl
@[simp] theorem State.driveEncoder_errChunk (p : EncPort) : (s.driveEncoder p).errChunk = s.errChunk := rfl
@[simp] theorem State.driveEncoder_pbuf (p : EncPort) : (s.driveEncoder p).pbuf = s.pbuf := rfl
@[simp] theorem State.driveEncoder_cmdPort (p : EncPort) : (s.driveEncoder p).cmdPort = s.cmdPort := rfl
@[simp] theorem State.driveEncoder_encPort (p : EncPort) : (s.driveEncoder p).encPort = p := rfl
@[simp] theorem State.driveEncoder_host (p : EncPort) : (s.driveEncoder p).host = s.host := rfl
@[simp] theorem State.driveEncoder_peer (p : EncPort) : (s.driveEncoder p).peer = s.peer := rfl
@[simp] theorem State.driveEncoder_turns (p : EncPort) : (s.driveEncoder p).turns = s.turns := rfl
@[simp] theorem State.driveEncoder_trace (p : EncPort) : (s.driveEncoder p).trace = s.trace := rfl
@[simp] theorem State.driveEncoder_hostLog (p : EncPort) : (s.driveEncoder p).hostLog = s.hostLog := rfl
@[simp] theorem State.driveEncoder_pbufEpoch (p : EncPort) : (s.driveEncoder p).pbufEpoch = s.pbufEpoch := rfl
@[simp] theorem State.driveEncoder_draws (p : EncPort) : (s.driveEncoder p).draws = s.draws := rfl

/-! ### driveCommand -/

@[simp] theorem State.driveCommand_params (p : CmdPort) : (s.driveCommand p).params = s.params := rfl
@[simp] theorem State.driveCommand_fsm (p : CmdPort) : (s.driveCommand p).fsm = s.fsm := rfl
@[simp] theorem State.driveCommand_opR (p : CmdPort) : (s.driveCommand p).opR = s.opR := rfl
@[simp] theorem State.driveCommand_hdrR (p : CmdPort) : (s.driveCommand p).hdrR = s.hdrR := rfl
@[simp] theorem State.driveCommand_lenR (p : CmdPort) : (s.driveCommand p).lenR = s.lenR := rfl
@[simp] theorem State.driveCommand_kR (p : CmdPort) : (s.driveCommand p).kR = s.kR := rfl
@[simp] theorem State.driveCommand_status (p : CmdPort) : (s.driveCommand p).status = s.status := rfl
@[simp] theorem State.driveCommand_errChunk (p : CmdPort) : (s.driveCommand p).errChunk = s.errChunk := rfl
@[simp] theorem State.driveCommand_pbuf (p : CmdPort) : (s.driveCommand p).pbuf = s.pbuf := rfl
@[simp] theorem State.driveCommand_cmdPort (p : CmdPort) : (s.driveCommand p).cmdPort = p := rfl
@[simp] theorem State.driveCommand_encPort (p : CmdPort) : (s.driveCommand p).encPort = s.encPort := rfl
@[simp] theorem State.driveCommand_host (p : CmdPort) : (s.driveCommand p).host = s.host := rfl
@[simp] theorem State.driveCommand_peer (p : CmdPort) : (s.driveCommand p).peer = s.peer := rfl
@[simp] theorem State.driveCommand_turns (p : CmdPort) : (s.driveCommand p).turns = s.turns := rfl
@[simp] theorem State.driveCommand_trace (p : CmdPort) : (s.driveCommand p).trace = s.trace := rfl
@[simp] theorem State.driveCommand_hostLog (p : CmdPort) : (s.driveCommand p).hostLog = s.hostLog := rfl
@[simp] theorem State.driveCommand_pbufEpoch (p : CmdPort) : (s.driveCommand p).pbufEpoch = s.pbufEpoch := rfl
@[simp] theorem State.driveCommand_draws (p : CmdPort) : (s.driveCommand p).draws = s.draws := rfl

/-! ### takeOffer -/

@[simp] theorem State.takeOffer_params : s.takeOffer.params = s.params := rfl
@[simp] theorem State.takeOffer_fsm : s.takeOffer.fsm = s.fsm := rfl
@[simp] theorem State.takeOffer_opR : s.takeOffer.opR = s.opR := rfl
@[simp] theorem State.takeOffer_hdrR : s.takeOffer.hdrR = s.hdrR := rfl
@[simp] theorem State.takeOffer_lenR : s.takeOffer.lenR = s.lenR := rfl
@[simp] theorem State.takeOffer_kR : s.takeOffer.kR = s.kR := rfl
@[simp] theorem State.takeOffer_status : s.takeOffer.status = s.status := rfl
@[simp] theorem State.takeOffer_errChunk : s.takeOffer.errChunk = s.errChunk := rfl
@[simp] theorem State.takeOffer_pbuf : s.takeOffer.pbuf = s.pbuf := rfl
@[simp] theorem State.takeOffer_cmdPort : s.takeOffer.cmdPort = { s.cmdPort with valid := false } := rfl
@[simp] theorem State.takeOffer_encPort : s.takeOffer.encPort = s.encPort := rfl
@[simp] theorem State.takeOffer_host : s.takeOffer.host = s.host := rfl
@[simp] theorem State.takeOffer_peer : s.takeOffer.peer = s.peer := rfl
@[simp] theorem State.takeOffer_turns : s.takeOffer.turns = s.turns := rfl
@[simp] theorem State.takeOffer_trace : s.takeOffer.trace = s.trace := rfl
@[simp] theorem State.takeOffer_hostLog : s.takeOffer.hostLog = s.hostLog := rfl
@[simp] theorem State.takeOffer_pbufEpoch : s.takeOffer.pbufEpoch = s.pbufEpoch := rfl
@[simp] theorem State.takeOffer_draws : s.takeOffer.draws = s.draws := rfl

/-! ### raise -/

@[simp] theorem State.raise_params (k : Status) (c : Nat) : (s.raise k c).params = s.params := rfl
@[simp] theorem State.raise_fsm (k : Status) (c : Nat) : (s.raise k c).fsm = .idle := rfl
@[simp] theorem State.raise_opR (k : Status) (c : Nat) : (s.raise k c).opR = s.opR := rfl
@[simp] theorem State.raise_hdrR (k : Status) (c : Nat) : (s.raise k c).hdrR = s.hdrR := rfl
@[simp] theorem State.raise_lenR (k : Status) (c : Nat) : (s.raise k c).lenR = s.lenR := rfl
@[simp] theorem State.raise_kR (k : Status) (c : Nat) : (s.raise k c).kR = s.kR := rfl
@[simp] theorem State.raise_status (k : Status) (c : Nat) : (s.raise k c).status = k := rfl
@[simp] theorem State.raise_errChunk (k : Status) (c : Nat) : (s.raise k c).errChunk = c := rfl
@[simp] theorem State.raise_pbuf (k : Status) (c : Nat) : (s.raise k c).pbuf = s.pbuf := rfl
@[simp] theorem State.raise_cmdPort (k : Status) (c : Nat) : (s.raise k c).cmdPort = s.cmdPort := rfl
@[simp] theorem State.raise_encPort (k : Status) (c : Nat) : (s.raise k c).encPort = s.encPort := rfl
@[simp] theorem State.raise_host (k : Status) (c : Nat) : (s.raise k c).host = s.host := rfl
@[simp] theorem State.raise_peer (k : Status) (c : Nat) : (s.raise k c).peer = s.peer := rfl
@[simp] theorem State.raise_turns (k : Status) (c : Nat) : (s.raise k c).turns = s.turns := rfl
@[simp] theorem State.raise_trace (k : Status) (c : Nat) : (s.raise k c).trace = s.trace := rfl
@[simp] theorem State.raise_hostLog (k : Status) (c : Nat) : (s.raise k c).hostLog = s.hostLog := rfl
@[simp] theorem State.raise_pbufEpoch (k : Status) (c : Nat) : (s.raise k c).pbufEpoch = s.pbufEpoch := rfl
@[simp] theorem State.raise_draws (k : Status) (c : Nat) : (s.raise k c).draws = s.draws := rfl

/-! ### startCommand -/

@[simp] theorem State.startCommand_params (op : Op) (phy reg : AddrIn) (n : Nat) :
    (s.startCommand op phy reg n).params =
      s.params := rfl
@[simp] theorem State.startCommand_fsm (op : Op) (phy reg : AddrIn) (n : Nat) :
    (s.startCommand op phy reg n).fsm =
      .txh0 := rfl
@[simp] theorem State.startCommand_opR (op : Op) (phy reg : AddrIn) (n : Nat) :
    (s.startCommand op phy reg n).opR =
      op := rfl
@[simp] theorem State.startCommand_hdrR (op : Op) (phy reg : AddrIn) (n : Nat) :
    (s.startCommand op phy reg n).hdrR =
      encodeHeader .send phy reg := rfl
@[simp] theorem State.startCommand_lenR (op : Op) (phy reg : AddrIn) (n : Nat) :
    (s.startCommand op phy reg n).lenR =
      n := rfl
@[simp] theorem State.startCommand_kR (op : Op) (phy reg : AddrIn) (n : Nat) :
    (s.startCommand op phy reg n).kR =
      0 := rfl
@[simp] theorem State.startCommand_status (op : Op) (phy reg : AddrIn) (n : Nat) :
    (s.startCommand op phy reg n).status =
      .none := rfl
@[simp] theorem State.startCommand_errChunk (op : Op) (phy reg : AddrIn) (n : Nat) :
    (s.startCommand op phy reg n).errChunk =
      s.errChunk := rfl
@[simp] theorem State.startCommand_pbuf (op : Op) (phy reg : AddrIn) (n : Nat) :
    (s.startCommand op phy reg n).pbuf =
      s.pbuf := rfl
@[simp] theorem State.startCommand_cmdPort (op : Op) (phy reg : AddrIn) (n : Nat) :
    (s.startCommand op phy reg n).cmdPort =
      s.cmdPort := rfl
@[simp] theorem State.startCommand_encPort (op : Op) (phy reg : AddrIn) (n : Nat) :
    (s.startCommand op phy reg n).encPort =
      s.encPort := rfl
@[simp] theorem State.startCommand_host (op : Op) (phy reg : AddrIn) (n : Nat) :
    (s.startCommand op phy reg n).host =
      s.host := rfl
@[simp] theorem State.startCommand_peer (op : Op) (phy reg : AddrIn) (n : Nat) :
    (s.startCommand op phy reg n).peer =
      s.peer := rfl
@[simp] theorem State.startCommand_turns (op : Op) (phy reg : AddrIn) (n : Nat) :
    (s.startCommand op phy reg n).turns =
      s.turns := rfl
@[simp] theorem State.startCommand_trace (op : Op) (phy reg : AddrIn) (n : Nat) :
    (s.startCommand op phy reg n).trace =
      s.trace := rfl
@[simp] theorem State.startCommand_hostLog (op : Op) (phy reg : AddrIn) (n : Nat) :
    (s.startCommand op phy reg n).hostLog =
      s.hostLog := rfl
@[simp] theorem State.startCommand_pbufEpoch (op : Op) (phy reg : AddrIn) (n : Nat) :
    (s.startCommand op phy reg n).pbufEpoch =
      s.pbufEpoch := rfl
@[simp] theorem State.startCommand_draws (op : Op) (phy reg : AddrIn) (n : Nat) :
    (s.startCommand op phy reg n).draws =
      s.draws := rfl

/-! ### completeEmpty -/

@[simp] theorem State.completeEmpty_params : s.completeEmpty.params = s.params := rfl
@[simp] theorem State.completeEmpty_fsm : s.completeEmpty.fsm = s.fsm := rfl
@[simp] theorem State.completeEmpty_opR : s.completeEmpty.opR = s.opR := rfl
@[simp] theorem State.completeEmpty_hdrR : s.completeEmpty.hdrR = s.hdrR := rfl
@[simp] theorem State.completeEmpty_lenR : s.completeEmpty.lenR = s.lenR := rfl
@[simp] theorem State.completeEmpty_kR : s.completeEmpty.kR = s.kR := rfl
@[simp] theorem State.completeEmpty_status : s.completeEmpty.status = .ok := rfl
@[simp] theorem State.completeEmpty_errChunk : s.completeEmpty.errChunk = s.errChunk := rfl
@[simp] theorem State.completeEmpty_pbuf : s.completeEmpty.pbuf = s.pbuf := rfl
@[simp] theorem State.completeEmpty_cmdPort : s.completeEmpty.cmdPort = s.cmdPort := rfl
@[simp] theorem State.completeEmpty_encPort : s.completeEmpty.encPort = s.encPort := rfl
@[simp] theorem State.completeEmpty_host : s.completeEmpty.host = s.host := rfl
@[simp] theorem State.completeEmpty_peer : s.completeEmpty.peer = s.peer := rfl
@[simp] theorem State.completeEmpty_turns : s.completeEmpty.turns = s.turns := rfl
@[simp] theorem State.completeEmpty_trace : s.completeEmpty.trace = s.trace := rfl
@[simp] theorem State.completeEmpty_hostLog : s.completeEmpty.hostLog = s.hostLog := rfl
@[simp] theorem State.completeEmpty_pbufEpoch : s.completeEmpty.pbufEpoch = s.pbufEpoch := rfl
@[simp] theorem State.completeEmpty_draws : s.completeEmpty.draws = s.draws := rfl

/-! ### finish -/

@[simp] theorem State.finish_params : s.finish.params = s.params := rfl
@[simp] theorem State.finish_fsm : s.finish.fsm = .idle := rfl
@[simp] theorem State.finish_opR : s.finish.opR = s.opR := rfl
@[simp] theorem State.finish_hdrR : s.finish.hdrR = s.hdrR := rfl
@[simp] theorem State.finish_lenR : s.finish.lenR = s.lenR := rfl
@[simp] theorem State.finish_kR : s.finish.kR = s.kR := rfl
@[simp] theorem State.finish_status : s.finish.status = .ok := rfl
@[simp] theorem State.finish_errChunk : s.finish.errChunk = s.errChunk := rfl
@[simp] theorem State.finish_pbuf : s.finish.pbuf = s.pbuf := rfl
@[simp] theorem State.finish_cmdPort : s.finish.cmdPort = s.cmdPort := rfl
@[simp] theorem State.finish_encPort : s.finish.encPort = s.encPort := rfl
@[simp] theorem State.finish_host : s.finish.host = s.host := rfl
@[simp] theorem State.finish_peer : s.finish.peer = s.peer := rfl
@[simp] theorem State.finish_turns : s.finish.turns = s.turns := rfl
@[simp] theorem State.finish_trace : s.finish.trace = s.trace := rfl
@[simp] theorem State.finish_hostLog : s.finish.hostLog = s.hostLog := rfl
@[simp] theorem State.finish_pbufEpoch : s.finish.pbufEpoch = s.pbufEpoch := rfl
@[simp] theorem State.finish_draws : s.finish.draws = s.draws := rfl

/-! ### nextChunk -/

@[simp] theorem State.nextChunk_params : s.nextChunk.params = s.params := rfl
@[simp] theorem State.nextChunk_fsm : s.nextChunk.fsm = .txh0 := rfl
@[simp] theorem State.nextChunk_opR : s.nextChunk.opR = s.opR := rfl
@[simp] theorem State.nextChunk_hdrR : s.nextChunk.hdrR = s.hdrR := rfl
@[simp] theorem State.nextChunk_lenR : s.nextChunk.lenR = s.lenR := rfl
@[simp] theorem State.nextChunk_kR : s.nextChunk.kR = s.kR + 1 := rfl
@[simp] theorem State.nextChunk_status : s.nextChunk.status = s.status := rfl
@[simp] theorem State.nextChunk_errChunk : s.nextChunk.errChunk = s.errChunk := rfl
@[simp] theorem State.nextChunk_pbuf : s.nextChunk.pbuf = s.pbuf := rfl
@[simp] theorem State.nextChunk_cmdPort : s.nextChunk.cmdPort = s.cmdPort := rfl
@[simp] theorem State.nextChunk_encPort : s.nextChunk.encPort = s.encPort := rfl
@[simp] theorem State.nextChunk_host : s.nextChunk.host = s.host := rfl
@[simp] theorem State.nextChunk_peer : s.nextChunk.peer = s.peer := rfl
@[simp] theorem State.nextChunk_turns : s.nextChunk.turns = s.turns := rfl
@[simp] theorem State.nextChunk_trace : s.nextChunk.trace = s.trace := rfl
@[simp] theorem State.nextChunk_hostLog : s.nextChunk.hostLog = s.hostLog := rfl
@[simp] theorem State.nextChunk_pbufEpoch : s.nextChunk.pbufEpoch = s.pbufEpoch := rfl
@[simp] theorem State.nextChunk_draws : s.nextChunk.draws = s.draws := rfl

/-! ### drawSlice -/

@[simp] theorem State.drawSlice_params : s.drawSlice.params = s.params := rfl
@[simp] theorem State.drawSlice_fsm : s.drawSlice.fsm = s.fsm := rfl
@[simp] theorem State.drawSlice_opR : s.drawSlice.opR = s.opR := rfl
@[simp] theorem State.drawSlice_hdrR : s.drawSlice.hdrR = s.hdrR := rfl
@[simp] theorem State.drawSlice_lenR : s.drawSlice.lenR = s.lenR := rfl
@[simp] theorem State.drawSlice_kR : s.drawSlice.kR = s.kR := rfl
@[simp] theorem State.drawSlice_status : s.drawSlice.status = s.status := rfl
@[simp] theorem State.drawSlice_errChunk : s.drawSlice.errChunk = s.errChunk := rfl
@[simp] theorem State.drawSlice_pbuf :
    s.drawSlice.pbuf =
      (s.pbuf.write s.chunkBase (Config.sliceDraw s.draws)).write (s.chunkBase + 1) (Config.sliceDraw (s.draws + 1)) := rfl
@[simp] theorem State.drawSlice_cmdPort : s.drawSlice.cmdPort = s.cmdPort := rfl
@[simp] theorem State.drawSlice_encPort : s.drawSlice.encPort = s.encPort := rfl
@[simp] theorem State.drawSlice_host : s.drawSlice.host = s.host := rfl
@[simp] theorem State.drawSlice_peer : s.drawSlice.peer = s.peer := rfl
@[simp] theorem State.drawSlice_turns : s.drawSlice.turns = s.turns := rfl
@[simp] theorem State.drawSlice_trace : s.drawSlice.trace = s.trace := rfl
@[simp] theorem State.drawSlice_hostLog : s.drawSlice.hostLog = s.hostLog := rfl
@[simp] theorem State.drawSlice_pbufEpoch : s.drawSlice.pbufEpoch = s.pbufEpoch := rfl
@[simp] theorem State.drawSlice_draws : s.drawSlice.draws = s.draws + 2 := rfl

/-! ### applyReset -/

@[simp] theorem State.applyReset_params : s.applyReset.params = s.params := rfl
@[simp] theorem State.applyReset_fsm : s.applyReset.fsm = .idle := rfl
@[simp] theorem State.applyReset_opR : s.applyReset.opR = .write := rfl
@[simp] theorem State.applyReset_hdrR : s.applyReset.hdrR = 0 := rfl
@[simp] theorem State.applyReset_lenR : s.applyReset.lenR = 0 := rfl
@[simp] theorem State.applyReset_kR : s.applyReset.kR = 0 := rfl
@[simp] theorem State.applyReset_status : s.applyReset.status = .none := rfl
@[simp] theorem State.applyReset_errChunk : s.applyReset.errChunk = 0 := rfl
@[simp] theorem State.applyReset_pbuf : s.applyReset.pbuf = [] := rfl
@[simp] theorem State.applyReset_cmdPort : s.applyReset.cmdPort = s.cmdPort := rfl
@[simp] theorem State.applyReset_encPort : s.applyReset.encPort = s.encPort := rfl
@[simp] theorem State.applyReset_host : s.applyReset.host = s.host := rfl
@[simp] theorem State.applyReset_peer : s.applyReset.peer = s.peer := rfl
@[simp] theorem State.applyReset_turns : s.applyReset.turns = s.turns := rfl
@[simp] theorem State.applyReset_trace : s.applyReset.trace = s.trace := rfl
@[simp] theorem State.applyReset_hostLog : s.applyReset.hostLog = s.hostLog := rfl
@[simp] theorem State.applyReset_pbufEpoch : s.applyReset.pbufEpoch = s.pbufEpoch + 1 := rfl
@[simp] theorem State.applyReset_draws : s.applyReset.draws = s.draws := rfl

/-! ### dropTurn -/

@[simp] theorem State.dropTurn_params : s.dropTurn.params = s.params := rfl
@[simp] theorem State.dropTurn_fsm : s.dropTurn.fsm = s.fsm := rfl
@[simp] theorem State.dropTurn_opR : s.dropTurn.opR = s.opR := rfl
@[simp] theorem State.dropTurn_hdrR : s.dropTurn.hdrR = s.hdrR := rfl
@[simp] theorem State.dropTurn_lenR : s.dropTurn.lenR = s.lenR := rfl
@[simp] theorem State.dropTurn_kR : s.dropTurn.kR = s.kR := rfl
@[simp] theorem State.dropTurn_status : s.dropTurn.status = s.status := rfl
@[simp] theorem State.dropTurn_errChunk : s.dropTurn.errChunk = s.errChunk := rfl
@[simp] theorem State.dropTurn_pbuf : s.dropTurn.pbuf = s.pbuf := rfl
@[simp] theorem State.dropTurn_cmdPort : s.dropTurn.cmdPort = s.cmdPort := rfl
@[simp] theorem State.dropTurn_encPort : s.dropTurn.encPort = s.encPort := rfl
@[simp] theorem State.dropTurn_host : s.dropTurn.host = s.host := rfl
@[simp] theorem State.dropTurn_peer : s.dropTurn.peer = s.peer := rfl
@[simp] theorem State.dropTurn_turns : s.dropTurn.turns = s.turns.tail := rfl
@[simp] theorem State.dropTurn_trace : s.dropTurn.trace = s.trace := rfl
@[simp] theorem State.dropTurn_hostLog : s.dropTurn.hostLog = s.hostLog := rfl
@[simp] theorem State.dropTurn_pbufEpoch : s.dropTurn.pbufEpoch = s.pbufEpoch := rfl
@[simp] theorem State.dropTurn_draws : s.dropTurn.draws = s.draws := rfl

/-! ### composed updates -/

@[simp] theorem State.raiseTransport_eq : s.raiseTransport = s.raise .transportError s.kR := rfl
@[simp] theorem State.raiseMalformed_eq (n : Nat) :
    s.raiseMalformed n = s.raise .malformedPayload (n / 2) := rfl
@[simp] theorem State.rxFail_eq : s.rxFail = s.drawSlice.raise .transportError s.kR := rfl

/-! ### derived outputs -/

@[simp] theorem State.busy_iff : s.busy = true ↔ s.fsm ≠ .idle := by simp [State.busy]
@[simp] theorem State.busy_false_iff : s.busy = false ↔ s.fsm = .idle := by simp [State.busy]
theorem State.cmdReady_eq_not_busy : s.cmdReady = !s.busy := by simp [State.busy, State.cmdReady, bne]

end Sys2Proof.Machine
end

