-- ==== Sys2Proof/Laws/Memory.lean ====
section
/-! SUPPORT. PBUF as data: read after write, the canonical form, and that equal contents are equal lists. -/

namespace Sys2Proof.Machine

@[simp] theorem Memory.read_nil (i : Nat) : Memory.read [] i = none := rfl

theorem Memory.read_cons (a : Nat) (b : Byte) (m : Memory) (i : Nat) :
    Memory.read ((a, b) :: m) i = if a = i then some b else Memory.read m i := rfl

/-- A byte reads as it was written last; every other byte as before. -/
theorem Memory.read_write (m : Memory) (i j : Nat) (v : Byte) :
    (m.write i v).read j = if j = i then some v else m.read j := by
  induction m with
  | nil => simp [Memory.write, Memory.read, eq_comm]
  | cons c m ih =>
    obtain ⟨a, b⟩ := c
    simp only [Memory.write]
    split
    · simp [Memory.read_cons, eq_comm]
    · split
      · subst_vars; by_cases h : j = a <;> simp [Memory.read_cons, h, eq_comm]
      · simp only [Memory.read_cons, ih]
        by_cases h : j = i <;> by_cases h' : a = j <;> simp_all

@[simp] theorem Memory.read_write_self (m : Memory) (i : Nat) (v : Byte) : (m.write i v).read i = some v := by
  simp [Memory.read_write]

theorem Memory.mem_write {m : Memory} {i : Nat} {v : Byte} {c : Host.Cell} (h : c ∈ m.write i v) :
    c = (i, v) ∨ c ∈ m := by
  induction m with
  | nil => simpa [Memory.write] using h
  | cons d m ih =>
    obtain ⟨a, b⟩ := d
    simp only [Memory.write] at h
    split at h
    · simpa using h
    · split at h
      · simp only [List.mem_cons] at h ⊢; tauto
      · simp only [List.mem_cons] at h ⊢
        rcases h with h | h
        · tauto
        · rcases ih h with h | h <;> tauto

/-- A write keeps the canonical form. -/
theorem Memory.wf_write {m : Memory} (h : m.wf) (i : Nat) (v : Byte) : (m.write i v).wf := by
  induction m with
  | nil => simp [Memory.write, Memory.wf]
  | cons c m ih =>
    obtain ⟨a, b⟩ := c
    obtain ⟨h1, h2⟩ := List.pairwise_cons.1 h
    simp only [Memory.write]
    split
    · rename_i hia
      refine List.pairwise_cons.2 ⟨?_, h⟩
      intro d hd
      rcases List.mem_cons.1 hd with rfl | hd
      · exact hia
      · exact Nat.lt_trans hia (h1 d hd)
    · split
      · subst_vars; exact List.pairwise_cons.2 ⟨h1, h2⟩
      · refine List.pairwise_cons.2 ⟨?_, ih h2⟩
        intro d hd
        rcases Memory.mem_write hd with rfl | hd
        · simp; omega
        · exact h1 d hd

theorem Memory.wf_nil : Memory.wf [] := List.Pairwise.nil

theorem Memory.read_none_of_lt {m : Memory} {i : Nat} (h : ∀ c ∈ m, i < c.1) : m.read i = none := by
  induction m with
  | nil => rfl
  | cons c m ih =>
    obtain ⟨a, b⟩ := c
    have ha : i < a := h (a, b) (by simp)
    rw [Memory.read_cons, if_neg (by omega), ih (fun d hd => h d (by simp [hd]))]

/-- Two canonical memories that list the same bytes are the same list. -/
theorem Memory.ext {m n : Memory} (hm : m.wf) (hn : n.wf) (h : ∀ i, m.read i = n.read i) : m = n := by
  induction m generalizing n with
  | nil =>
    cases n with
    | nil => rfl
    | cons c n =>
      obtain ⟨a, b⟩ := c
      have := h a
      simp [Memory.read_cons] at this
  | cons c m ih =>
    obtain ⟨a, b⟩ := c
    obtain ⟨hm1, hm2⟩ := List.pairwise_cons.1 hm
    cases n with
    | nil => have := h a; simp [Memory.read_cons] at this
    | cons d n =>
      obtain ⟨a', b'⟩ := d
      obtain ⟨hn1, hn2⟩ := List.pairwise_cons.1 hn
      have ham := Memory.read_none_of_lt hm1
      have han := Memory.read_none_of_lt hn1
      have haa : a = a' := by
        rcases Nat.lt_trichotomy a a' with hl | rfl | hl
        · have := h a
          rw [Memory.read_cons, if_pos rfl, Memory.read_cons, if_neg (by omega),
            Memory.read_none_of_lt (fun d hd => Nat.lt_trans hl (hn1 d hd))] at this
          cases this
        · rfl
        · have := h a'
          rw [Memory.read_cons, if_neg (by omega), Memory.read_none_of_lt (fun d hd => Nat.lt_trans hl (hm1 d hd)),
            Memory.read_cons, if_pos rfl] at this
          cases this
      subst haa
      have hb := h a
      simp only [Memory.read_cons, if_true, Option.some.injEq] at hb
      subst hb
      congr 1
      refine ih hm2 hn2 fun i => ?_
      by_cases hi : a = i
      · subst hi; rw [ham, han]
      · simpa [Memory.read_cons, hi] using h i

/-- `MemRead` after `MemWrite` (R13). -/
theorem State.pbufByte_storeByte (s : State) (i j : Nat) (v : Byte) :
    (s.storeByte i v).pbufByte j = if j = i then v else s.pbufByte j := by
  simp only [State.pbufByte, State.storeByte_pbuf, State.storeByte_pbufEpoch, Memory.read_write]
  by_cases h : j = i <;> simp [h]

/-- What PBUF reads as depends on nothing but its bytes and the last reset. -/
theorem State.pbufByte_congr {s t : State} (hm : t.pbuf = s.pbuf) (he : t.pbufEpoch = s.pbufEpoch) :
    t.pbufByte = s.pbufByte := by
  funext i; simp [State.pbufByte, hm, he]

/-- R137: both bytes of the failing slice are draws; every other byte is as before. -/
theorem State.pbufByte_drawSlice (s : State) (j : Nat) :
    s.drawSlice.pbufByte j =
      if j = s.chunkBase + 1 then Config.sliceDraw (s.draws + 1)
      else if j = s.chunkBase then Config.sliceDraw s.draws else s.pbufByte j := by
  simp only [State.pbufByte, State.drawSlice_pbuf, State.drawSlice_pbufEpoch, Memory.read_write]
  by_cases h1 : j = s.chunkBase + 1
  · simp [h1]
  · by_cases h2 : j = s.chunkBase <;> simp [h1, h2]

/-- R44: after a reset every byte is a draw of that reset. -/
theorem State.pbufByte_applyReset (s : State) (j : Nat) :
    s.applyReset.pbufByte j = Config.pbufDraw (s.pbufEpoch + 1) j := rfl

end Sys2Proof.Machine
end

