-- ==== Sys2Proof/Laws/Ops.lean ====
section
/-! SUPPORT. What each shared operation can do, once: the lemmas a proof cites instead of unfolding it. -/

namespace Sys2Proof.Machine

/-- R116: the two ends of a chunk. -/
theorem endChunk_cases (s : State) :
    (s.kR + 1 = s.lenR / 2 ∧ s.endChunk = s.finish) ∨
    (s.kR + 1 ≠ s.lenR / 2 ∧ s.endChunk = s.nextChunk) := by
  unfold State.endChunk
  split
  · exact .inl ⟨‹_›, rfl⟩
  · exact .inr ⟨‹_›, rfl⟩

/-- R37: a transmit transfer ends in one of four ways. -/
theorem streamPut_cases (b : Byte) (p : PeerSignals) (f : State → State) (s : State) :
    (txAnswer p = .waits ∧ streamPut b p f s = .next s) ∨
    (txAnswer p = .ok ∧ streamPut b p f s = .next (f (s.deliver b))) ∨
    (txAnswer p = .err ∧ streamPut b p f s = .next (s.raise .transportError s.kR)) ∨
    (txAnswer p = .both ∧ streamPut b p f s = .refused .txBothSignals) := by
  unfold streamPut
  cases h : txAnswer p <;> simp

/-- R38: a receive transfer ends in one of four ways. -/
theorem streamGet_cases (i : Nat) (p : PeerSignals) (f : State → State) (s : State) :
    (rxAnswer p = .waits ∧ streamGet i p f s = .next s) ∨
    (∃ v, rxAnswer p = .got (.byte v) ∧ streamGet i p f s = .next (f ((s.consume (.byte v)).storeByte i v))) ∨
    (∃ o, (o = .eof ∨ o = .err) ∧ rxAnswer p = .got o ∧ streamGet i p f s = .next (s.consume o).rxFail) ∨
    (rxAnswer p = .several ∧ streamGet i p f s = .refused .rxMultiSignal) := by
  unfold streamGet
  rcases h : rxAnswer p with _ | (v | _ | _) | _ <;> simp

theorem inPbuf_of_lt {s : State} (h : s.chunkBase + 1 < s.params.maxLen) (r : Result) : inPbuf s r = r := by
  simp [inPbuf, State.chunkInPbuf, h]

/-- R111, R158: acceptance ends in one of five ways. -/
theorem acceptCommand_cases (op : Op) (phy reg : AddrIn) (n : Nat) (s : State) :
    (s.fsm ≠ .idle ∧ acceptCommand op phy reg n s = .next s) ∨
    (s.fsm = .idle ∧ s.params.maxLen < n ∧ acceptCommand op phy reg n s = .refused .lenAboveMax) ∨
    (s.fsm = .idle ∧ n ≤ s.params.maxLen ∧ n % 2 = 1 ∧
      acceptCommand op phy reg n s = .next (s.raise .malformedPayload (n / 2))) ∨
    (s.fsm = .idle ∧ n = 0 ∧ acceptCommand op phy reg n s = .next s.completeEmpty) ∨
    (s.fsm = .idle ∧ n ≤ s.params.maxLen ∧ n % 2 = 0 ∧ 0 < n ∧
      acceptCommand op phy reg n s = .next (s.startCommand op phy reg n)) := by
  unfold acceptCommand
  by_cases hb : s.fsm = .idle
  · by_cases h1 : s.params.maxLen < n
    · simp [State.busy, hb, h1]
    · by_cases h2 : n % 2 = 1
      · have : n ≠ 0 := by omega
        simp [State.busy, hb, h1, h2, this, Nat.not_lt.1 h1]
      · by_cases h3 : n = 0
        · simp [State.busy, hb, h3]
        · simp [State.busy, hb, h1, h2, h3, Nat.not_lt.1 h1]
          omega
  · simp [State.busy, hb]

/-- R34, R188, R189: a host access to PBUF ends in one of three ways. -/
theorem hostAccess_cases (i : Nat) (s t : State) :
    (s.fsm ≠ .idle ∧ hostAccess i s t = .refused .pbufBusy) ∨
    (s.fsm = .idle ∧ s.params.maxLen ≤ i ∧ hostAccess i s t = .refused .pbufRange) ∨
    (s.fsm = .idle ∧ i < s.params.maxLen ∧ hostAccess i s t = .next t) := by
  unfold hostAccess
  by_cases hb : s.fsm = .idle
  · by_cases h1 : s.params.maxLen ≤ i
    · simp [State.busy, hb, h1]
    · simp [State.busy, hb, h1, Nat.not_le.1 h1]
  · simp [State.busy, hb]

/-- The operation the command port's inputs name is the one the word they pack decodes to (R75, R80), when the length fits
the word. -/
theorem offered_eq_decode {p : CmdPort} (h : p.len < lenBound) : offered p = decode (.cmdw (wordOfCmdPort p)) := by
  have hsel : (wordOfCmdPort p).getLsbD 31 = p.rd := by
    simp only [wordOfCmdPort, packCmdw, BitVec.getLsbD_append]
    cases p.rd <;> simp
  have hphy : byteField (wordOfCmdPort p) 0 = p.phy := by
    apply BitVec.eq_of_getLsbD_eq; intro i hi
    simp only [byteField, wordOfCmdPort, packCmdw, BitVec.getLsbD_extractLsb', BitVec.getLsbD_append]
    interval_cases i <;> simp
  have hreg : byteField (wordOfCmdPort p) 8 = p.reg := by
    apply BitVec.eq_of_getLsbD_eq; intro i hi
    simp only [byteField, wordOfCmdPort, packCmdw, BitVec.getLsbD_extractLsb', BitVec.getLsbD_append]
    interval_cases i <;> simp
  have hlen : cmdwLen (wordOfCmdPort p) = BitVec.ofNat 15 p.len := by
    apply BitVec.eq_of_getLsbD_eq; intro i hi
    simp only [cmdwLen, wordOfCmdPort, packCmdw, BitVec.getLsbD_extractLsb', BitVec.getLsbD_append]
    interval_cases i <;> simp
  have hmod : p.len % 2 ^ 15 = p.len := Nat.mod_eq_of_lt h
  simp only [offered, decode, decodeCmdw, hsel, hphy, hreg, hlen, BitVec.toNat_ofNat, hmod]

/-- Running the offered operation is its acceptance. -/
theorem exec_offered (p : CmdPort) (s : State) :
    exec (offered p) s = acceptCommand (if p.rd then .read else .write) p.phy p.reg p.len s := by
  unfold offered; cases p.rd <;> rfl

end Sys2Proof.Machine
end

