-- ==== Sys2Proof/Laws/PerInstr.lean ====
section
/-! SUPPORT. What holds of every instruction as syntax, one lemma a constructor: its word is on the port and has the
selecting bit its row of opcode_table.json gives it (R80). -/

namespace Sys2Proof.Laws.EncodingRow

/-- The word matches its row's match under its row's mask. -/
def Statement : Instr → Prop
  | .encodeS phy reg => ∃ w, encode (.encodeS phy reg) = .encw w ∧ w &&& 0x10000#17 = 0x00000#17
  | .encodeR phy reg => ∃ w, encode (.encodeR phy reg) = .encw w ∧ w &&& 0x10000#17 = 0x10000#17
  | .write phy reg n => ∃ w, encode (.write phy reg n) = .cmdw w ∧ w &&& 0x80000000#32 = 0x00000000#32
  | .read phy reg n => ∃ w, encode (.read phy reg n) = .cmdw w ∧ w &&& 0x80000000#32 = 0x80000000#32

theorem packEncw_select (d : BitVec 1) (reg phy : AddrIn) :
    packEncw d reg phy &&& 0x10000#17 = d.setWidth 17 <<< 16 := by
  apply BitVec.eq_of_getLsbD_eq
  intro i hi
  simp only [packEncw, BitVec.getLsbD_and, BitVec.getLsbD_append, BitVec.getLsbD_shiftLeft, BitVec.getLsbD_setWidth]
  interval_cases i <;> simp

theorem packCmdw_select (d : BitVec 1) (len : Len) (reg phy : AddrIn) :
    packCmdw d len reg phy &&& 0x80000000#32 = d.setWidth 32 <<< 31 := by
  apply BitVec.eq_of_getLsbD_eq
  intro i hi
  simp only [packCmdw, BitVec.getLsbD_and, BitVec.getLsbD_append, BitVec.getLsbD_shiftLeft, BitVec.getLsbD_setWidth]
  interval_cases i <;> simp

theorem encodeS (phy reg : AddrIn) : Statement (.encodeS phy reg) :=
  ⟨_, rfl, packEncw_select 0 reg phy⟩

theorem encodeR (phy reg : AddrIn) : Statement (.encodeR phy reg) :=
  ⟨_, rfl, packEncw_select 1 reg phy⟩

theorem write (phy reg : AddrIn) (n : Nat) : Statement (.write phy reg n) :=
  ⟨_, rfl, packCmdw_select 0 _ reg phy⟩

theorem read (phy reg : AddrIn) (n : Nat) : Statement (.read phy reg n) :=
  ⟨_, rfl, packCmdw_select 1 _ reg phy⟩

end Sys2Proof.Laws.EncodingRow
end

