-- ==== Sys2Proof/Laws/Step.lean ====
section
/-! SUPPORT. What a turn of each agent, and so a step, can do: the inversion lemmas every statement about all steps goes
through. -/

namespace Sys2Proof.Machine

/-! ## Whose turn a step is -/

theorem step_seq {s : State} (h : s.nextTurn = .seq) : step s = seqTurn s.dropTurn := by simp [step, turn, h]
theorem step_host {s : State} (h : s.nextTurn = .host) : step s = hostTurn s.dropTurn := by simp [step, turn, h]
theorem step_seqReset {s : State} (h : s.nextTurn = .seqReset) : step s = .next (resetDuring s.dropTurn) := by
  simp [step, turn, h]

/-! ## A transfer -/

/-- Where a transfer leads when the peer serves it (R112 to R116, R132, R133). -/
def State.advance (s : State) : State :=
  match s.fsm with
  | .idle => s
  | .txh0 => s.goto .txh1
  | .txh1 => s.goto (afterHeader s.opR)
  | .txd0 => s.goto .txd1
  | .rxd0 => s.goto .rxd1
  | .txd1 | .rxd1 => s.endChunk

/-- The PBUF index a received byte goes to (R132, R133). -/
def State.rxIndex (s : State) : Nat := if s.fsm = .rxd1 then s.chunkBase + 1 else s.chunkBase

/-- One transfer of a running command whose chunk lies in PBUF: it waits, sends, fails to send, receives, fails to receive,
or is refused. -/
theorem transfer_cases (p : PeerSignals) {s : State} (hk : s.chunkBase + 1 < s.params.maxLen) (hb : s.fsm ≠ .idle) :
    (((s.txValid = true ∧ txAnswer p = .waits) ∨ (s.rxReady = true ∧ rxAnswer p = .waits)) ∧ transfer p s = .next s) ∨
    (∃ b, s.txData = some b ∧ s.txValid = true ∧ txAnswer p = .ok ∧ transfer p s = .next (s.deliver b).advance) ∨
    (s.txValid = true ∧ txAnswer p = .err ∧ transfer p s = .next (s.raise .transportError s.kR)) ∨
    (∃ v, s.rxReady = true ∧ rxAnswer p = .got (.byte v) ∧
      transfer p s = .next ((s.consume (.byte v)).storeByte s.rxIndex v).advance) ∨
    (∃ o, s.rxReady = true ∧ (o = .eof ∨ o = .err) ∧ rxAnswer p = .got o ∧
      transfer p s = .next (s.consume o).rxFail) ∨
    (s.txValid = true ∧ txAnswer p = .both ∧ transfer p s = .refused .txBothSignals) ∨
    (s.rxReady = true ∧ rxAnswer p = .several ∧ transfer p s = .refused .rxMultiSignal) := by
  cases hf : s.fsm with
  | idle => exact absurd hf hb
  | txh0 =>
    rcases streamPut_cases (headerHigh s.hdrR) p (fun t => t.goto .txh1) s with ⟨h, e⟩ | ⟨h, e⟩ | ⟨h, e⟩ | ⟨h, e⟩ <;>
      simp [transfer, hf, stepTxh0, e, h, State.txValid, State.rxReady, State.txData, State.advance]
  | txh1 =>
    rcases streamPut_cases (headerLow s.hdrR) p (fun t => t.goto (afterHeader t.opR)) s with
      ⟨h, e⟩ | ⟨h, e⟩ | ⟨h, e⟩ | ⟨h, e⟩ <;>
      simp [transfer, hf, stepTxh1, e, h, State.txValid, State.rxReady, State.txData, State.advance]
  | txd0 =>
    rcases streamPut_cases (s.pbufByte s.chunkBase) p (fun t => t.goto .txd1) s with
      ⟨h, e⟩ | ⟨h, e⟩ | ⟨h, e⟩ | ⟨h, e⟩ <;>
      simp [transfer, hf, stepTxd0, inPbuf_of_lt hk, e, h, State.txValid, State.rxReady, State.txData, State.advance]
  | txd1 =>
    rcases streamPut_cases (s.pbufByte (s.chunkBase + 1)) p State.endChunk s with
      ⟨h, e⟩ | ⟨h, e⟩ | ⟨h, e⟩ | ⟨h, e⟩ <;>
      simp [transfer, hf, stepTxd1, inPbuf_of_lt hk, e, h, State.txValid, State.rxReady, State.txData, State.advance]
  | rxd0 =>
    rcases streamGet_cases s.chunkBase p (fun t => t.goto .rxd1) s with
      ⟨h, e⟩ | ⟨v, h, e⟩ | ⟨o, ho, h, e⟩ | ⟨h, e⟩
    · simp [transfer, hf, stepRxd0, inPbuf_of_lt hk, e, h, State.txValid, State.rxReady]
    · simp [transfer, hf, stepRxd0, inPbuf_of_lt hk, e, h, State.txValid, State.rxReady, State.advance, State.rxIndex]
    · rcases ho with rfl | rfl <;>
        simp [transfer, hf, stepRxd0, inPbuf_of_lt hk, e, h, State.txValid, State.rxReady]
    · simp [transfer, hf, stepRxd0, inPbuf_of_lt hk, e, h, State.txValid, State.rxReady]
  | rxd1 =>
    rcases streamGet_cases (s.chunkBase + 1) p State.endChunk s with
      ⟨h, e⟩ | ⟨v, h, e⟩ | ⟨o, ho, h, e⟩ | ⟨h, e⟩
    · simp [transfer, hf, stepRxd1, inPbuf_of_lt hk, e, h, State.txValid, State.rxReady]
    · simp [transfer, hf, stepRxd1, inPbuf_of_lt hk, e, h, State.txValid, State.rxReady, State.advance, State.rxIndex]
    · rcases ho with rfl | rfl <;>
        simp [transfer, hf, stepRxd1, inPbuf_of_lt hk, e, h, State.txValid, State.rxReady]
    · simp [transfer, hf, stepRxd1, inPbuf_of_lt hk, e, h, State.txValid, State.rxReady]

/-! ## The sequencer's turn -/

theorem seqTurn_idle {s : State} (hf : s.fsm = .idle) (hv : s.cmdPort.valid = false) : seqTurn s = .next s := by
  simp [seqTurn, hf, hv]

theorem seqTurn_accept {s : State} (hf : s.fsm = .idle) (hv : s.cmdPort.valid = true) :
    seqTurn s = acceptCommand (if s.cmdPort.rd then .read else .write) s.cmdPort.phy s.cmdPort.reg
      s.cmdPort.len s.takeOffer := by
  simp [seqTurn, hf, hv, exec_offered]

theorem seqTurn_silent {s : State} (hf : s.fsm ≠ .idle) (hp : s.peer = []) : seqTurn s = .next s := by
  cases h : s.fsm <;> simp_all [seqTurn]

theorem seqTurn_transfer {s : State} (hf : s.fsm ≠ .idle) {p : PeerSignals} {rest : List PeerSignals}
    (hp : s.peer = p :: rest) : seqTurn s = transfer p { s with peer := rest } := by
  cases h : s.fsm <;> simp_all [seqTurn]

/-- What a turn of the sequencer can do when it is neither refused nor outside PBUF. In a transfer `u` is the state with the
peer's entry used up. -/
theorem seqTurn_cases {s t : State} (hk : s.fsm ≠ .idle → s.chunkBase + 1 < s.params.maxLen)
    (h : seqTurn s = .next t) :
    (t = s ∧ (s.fsm = .idle ∨ s.peer = [])) ∨
    (s.fsm = .idle ∧ s.cmdPort.valid = true ∧ s.cmdPort.len % 2 = 1 ∧
      s.cmdPort.len ≤ s.params.maxLen ∧
      t = s.takeOffer.raise .malformedPayload (s.cmdPort.len / 2)) ∨
    (s.fsm = .idle ∧ s.cmdPort.valid = true ∧ s.cmdPort.len = 0 ∧ t = s.takeOffer.completeEmpty) ∨
    (s.fsm = .idle ∧ s.cmdPort.valid = true ∧ s.cmdPort.len ≤ s.params.maxLen ∧
      s.cmdPort.len % 2 = 0 ∧ 0 < s.cmdPort.len ∧
      t = s.takeOffer.startCommand (if s.cmdPort.rd then .read else .write) s.cmdPort.phy s.cmdPort.reg
        s.cmdPort.len) ∨
    (s.fsm ≠ .idle ∧ ∃ p rest u, s.peer = p :: rest ∧ u = ({ s with peer := rest } : State) ∧
      (t = u ∨
       (∃ b, s.txData = some b ∧ s.txValid = true ∧ txAnswer p = .ok ∧ t = (u.deliver b).advance) ∨
       (s.txValid = true ∧ txAnswer p = .err ∧ t = u.raise .transportError s.kR) ∨
       (∃ v, s.rxReady = true ∧ rxAnswer p = .got (.byte v) ∧
          t = ((u.consume (.byte v)).storeByte s.rxIndex v).advance) ∨
       (∃ o, s.rxReady = true ∧ (o = .eof ∨ o = .err) ∧ rxAnswer p = .got o ∧
          t = (u.consume o).drawSlice.raise .transportError s.kR))) := by
  by_cases hf : s.fsm = .idle
  · cases hv : s.cmdPort.valid with
    | false => rw [seqTurn_idle hf hv] at h; cases h; exact .inl ⟨rfl, .inl hf⟩
    | true =>
      rw [seqTurn_accept hf hv] at h
      rcases acceptCommand_cases (if s.cmdPort.rd then .read else .write) s.cmdPort.phy s.cmdPort.reg
        s.cmdPort.len s.takeOffer with ⟨_, e⟩ | ⟨_, _, e⟩ | ⟨_, h1, h2, e⟩ | ⟨_, h1, e⟩ | ⟨_, h1, h2, h3, e⟩ <;>
        rw [e] at h <;> cases h
      · exact .inl (by simp_all)
      · exact .inr (.inl ⟨hf, rfl, h2, h1, rfl⟩)
      · exact .inr (.inr (.inl ⟨hf, rfl, h1, rfl⟩))
      · exact .inr (.inr (.inr (.inl ⟨hf, rfl, h1, h2, h3, rfl⟩)))
  · cases hp : s.peer with
    | nil => rw [seqTurn_silent hf hp] at h; cases h; exact .inl ⟨rfl, .inr rfl⟩
    | cons p rest =>
      rw [seqTurn_transfer hf hp] at h
      refine .inr (.inr (.inr (.inr ⟨hf, p, rest, _, rfl, rfl, ?_⟩)))
      rcases transfer_cases p (s := { s with peer := rest }) (hk hf) hf with
        ⟨_, e⟩ | ⟨b, h1, h2, h3, e⟩ | ⟨h1, h2, e⟩ | ⟨v, h1, h2, e⟩ | ⟨o, h1, h2, h3, e⟩ | ⟨_, _, e⟩ | ⟨_, _, e⟩ <;>
        rw [e] at h <;> cases h
      · exact .inl rfl
      · exact .inr (.inl ⟨b, h1, h2, h3, rfl⟩)
      · exact .inr (.inr (.inl ⟨h1, h2, rfl⟩))
      · exact .inr (.inr (.inr (.inl ⟨v, h1, h2, rfl⟩)))
      · exact .inr (.inr (.inr (.inr ⟨o, h1, h2, h3, rfl⟩)))

/-- In a running state that keeps the invariant, both bytes of the current chunk lie in PBUF. -/
theorem BlockInv.chunk_in_pbuf {s : State} (h : BlockInv s) (hf : s.fsm ≠ .idle) : s.chunkBase + 1 < s.params.maxLen := by
  obtain ⟨_, _, _, hr, _⟩ := h
  obtain ⟨h1, h2, h3, _⟩ := hr (by simpa using hf)
  simp only [State.chunkBase]
  omega

/-! ## The host's turn -/

/-- What a turn of the host can do when it is not refused. -/
theorem hostTurn_cases {s t : State} (h : hostTurn s = .next t) :
    t = s ∨
    ∃ a rest, s.host = a :: rest ∧
      ((∃ p, t = useEncoder p { s with host := rest }) ∨
       (∃ p, t = ({ s with host := rest } : State).driveCommand p) ∨
       (∃ i b, a = .pbw i b ∧ s.fsm = .idle ∧ i < s.params.maxLen ∧
          t = ({ s with host := rest } : State).storeByte i b) ∨
       (∃ r, t = ({ s with host := rest } : State).record r) ∨
       (a ≠ .rst ∧ (a = .wait ∧ s.busy = false ∨ a = .hold ∧ s.cmdPort.valid = false) ∧ t = { s with host := rest }) ∨
       (a = .rst ∧ t = ({ s with host := rest } : State).applyReset)) := by
  unfold hostTurn at h
  cases hh : s.host with
  | nil => simp [hh] at h; exact .inl h.symm
  | cons a rest =>
    simp only [hh] at h
    cases a with
    | encoder w =>
      refine .inr ⟨_, rest, rfl, .inl ?_⟩
      simp only [hostAct, decode, decodeEncw] at h
      split at h
      · simp only [exec, execEncodeR, Host.Outcome.next.injEq] at h; exact ⟨_, h.symm⟩
      · simp only [exec, execEncodeS, Host.Outcome.next.injEq] at h; exact ⟨_, h.symm⟩
    | issue rd phy reg len =>
      simp only [hostAct] at h
      split at h
      · left; simpa using h.symm
      · exact .inr ⟨_, rest, rfl, .inr (.inl ⟨_, by simpa using h.symm⟩)⟩
    | drive p => exact .inr ⟨_, rest, rfl, .inr (.inl ⟨p, by simpa [hostAct] using h.symm⟩)⟩
    | pbw i b =>
      refine .inr ⟨_, rest, rfl, .inr (.inr (.inl ⟨i, b, rfl, ?_⟩))⟩
      simp only [hostAct, hostPbw] at h
      rcases hostAccess_cases i { s with host := rest } (({ s with host := rest } : State).storeByte i b) with
        ⟨_, e⟩ | ⟨_, _, e⟩ | ⟨h1, h2, e⟩
      · rw [e] at h; cases h
      · rw [e] at h; cases h
      · rw [e] at h; exact ⟨h1, h2, by simpa using h.symm⟩
    | pbr i =>
      refine .inr ⟨_, rest, rfl, .inr (.inr (.inr (.inl ?_)))⟩
      simp only [hostAct, hostPbr] at h
      rcases hostAccess_cases i { s with host := rest }
        (({ s with host := rest } : State).record (.pbRdata i (({ s with host := rest } : State).pbufByte i))) with
        ⟨_, e⟩ | ⟨_, _, e⟩ | ⟨h1, h2, e⟩
      · rw [e] at h; cases h
      · rw [e] at h; cases h
      · rw [e] at h; exact ⟨_, by simpa using h.symm⟩
    | stat => exact .inr ⟨_, rest, rfl, .inr (.inr (.inr (.inl ⟨_, by simpa [hostAct, hostStat] using h.symm⟩)))⟩
    | wait =>
      simp only [hostAct] at h
      split at h
      · left; simpa using h.symm
      · rename_i hw
        exact .inr ⟨_, rest, rfl,
          .inr (.inr (.inr (.inr (.inl ⟨by simp, .inl ⟨rfl, by simpa using hw⟩, by simpa using h.symm⟩))))⟩
    | hold =>
      simp only [hostAct] at h
      split at h
      · left; simpa using h.symm
      · rename_i hw
        exact .inr ⟨_, rest, rfl,
          .inr (.inr (.inr (.inr (.inl ⟨by simp, .inr ⟨rfl, by simpa using hw⟩, by simpa using h.symm⟩))))⟩
    | rst =>
      exact .inr ⟨_, rest, rfl, .inr (.inr (.inr (.inr (.inr ⟨rfl, by simpa [hostAct] using h.symm⟩))))⟩

end Sys2Proof.Machine
end

