-- ==== Sys2Proof/Laws/Run.lean ====
section
/-! SUPPORT. A run unrolled at its first step. -/

namespace Sys2Proof.Machine

theorem coreRun_next (M : Host.Core) {n : Nat} {s t : M.State} (h : M.step s = .next t) :
    M.run (n + 1) s = M.run n t := by
  simp only [Host.Core.run, h]

theorem coreRun_refused (M : Host.Core) {n : Nat} {s : M.State} {r : M.Refusal} (h : M.step s = .refused r) :
    M.run (n + 1) s = .refused r := by
  simp only [Host.Core.run, h]

theorem coreRun_fault (M : Host.Core) {n : Nat} {s : M.State} {r : M.Fault} (h : M.step s = .fault r) :
    M.run (n + 1) s = .fault r := by
  simp only [Host.Core.run, h]

theorem run_zero (s : State) : core.run 0 s = .next s := rfl

theorem run_next {n : Nat} {s t : State} (h : step s = .next t) : core.run (n + 1) s = core.run n t :=
  coreRun_next core h

theorem run_refused {n : Nat} {s : State} {r : Refusal} (h : step s = .refused r) :
    core.run (n + 1) s = .refused r :=
  coreRun_refused core h

theorem run_fault {n : Nat} {s : State} {r : Fault} (h : step s = .fault r) : core.run (n + 1) s = .fault r :=
  coreRun_fault core h

/-- A run cut in two: `m` more steps from where `n` steps led. -/
theorem run_add {n m : Nat} {s t : State} (h : core.run n s = .next t) : core.run (n + m) s = core.run m t := by
  induction n generalizing s with
  | zero =>
    rw [run_zero] at h
    cases h
    rw [Nat.zero_add]
  | succ n ih =>
    rw [Nat.succ_add]
    cases hs : step s with
    | next u => rw [run_next hs] at h ⊢; exact ih h
    | fault r => rw [run_fault hs] at h; cases h
    | refused r => rw [run_refused hs] at h; cases h

end Sys2Proof.Machine
end

