-- ==== Sys2Proof/Tests/Slice0.lean ====
section
/-! SUPPORT. Tests: ill-formed terms, the words and headers the spec writes out (95_test_vectors.md), single steps from its
vectors, and for each statement that has hypotheses a state that meets them together. -/

namespace Sys2Proof.Tests

open Sys2Proof Sys2Proof.Machine

/-! ## Small states -/

/-- A peer that raises nothing. -/
def silent : PeerSignals :=
  { txReady := false, txErr := false, rxValid := false, rxEof := false, rxErr := false, rxData := 0 }

/-- A peer that accepts the byte offered to it. -/
def accepts : PeerSignals := { silent with txReady := true }

/-- A peer that fails the byte offered to it. -/
def fails : PeerSignals := { silent with txErr := true }

/-- A peer that answers `v`. -/
def gives (v : Byte) : PeerSignals := { silent with rxValid := true, rxData := v }

/-- A peer at its end of stream. -/
def atEnd : PeerSignals := { silent with rxEof := true }

/-- The state after reset with the command word `w` on the port. -/
def offering (w : BitVec 32) : State := { State.reset with cmdPort := cmdPortOfWord w }

/-- The state after reset in which the host takes the action `a`. -/
def acting (a : HostAction) : State := { State.reset with host := [a], turns := [.host] }

/-- A command of `n` bytes to PHY 3, register 3 in the state `f` of chunk `k`, over PBUF `01 02 03 04`, with the peer's next
signals. -/
def running (f : Fsm) (op : Op) (n k : Nat) (p : List PeerSignals) : State :=
  { State.reset with
    fsm := f, opR := op, hdrR := 0x518E, lenR := n, kR := k, peer := p
    pbuf := [(0, 1), (1, 2), (2, 3), (3, 4)] }

/-- The outcome is a next state of which `f` holds. -/
def nextIs (f : State → Bool) : Host.Outcome State Fault Refusal → Bool
  | .next s => f s
  | .fault _ => false
  | .refused _ => false

/-- The outcome is the refusal `r`. -/
def refusedAs (r : Refusal) : Host.Outcome State Fault Refusal → Bool
  | .refused q => q == r
  | .next _ => false
  | .fault _ => false

/-! ## Well-formedness -/

theorem test_write_too_long_is_ill_formed : (Instr.write 3 3 32768).wellFormed = false := by decide
theorem test_read_too_long_is_ill_formed : (Instr.read 3 3 32768).wellFormed = false := by decide
theorem test_longest_is_well_formed : (Instr.write 3 3 32767).wellFormed = true := by decide

/-! ## Words written out from the spec (sections 2, 3, 4 and 6 of 95_test_vectors.md; R85) -/

theorem test_decode_encodeS : decode (.encw 0b0_00000010_00000101#17) = .encodeS 5 2 := by decide
theorem test_decode_encodeS_wide : decode (.encw 0b0_10100010_11100101#17) = .encodeS 0xE5 0xA2 := by decide
theorem test_decode_encodeR : decode (.encw 0b1_11111111_11111111#17) = .encodeR 0xFF 0xFF := by decide
theorem test_decode_write : decode (.cmdw 0b0_000000000000010_00000011_00000011#32) = .write 3 3 2 := by decide
theorem test_decode_write_w6 : decode (.cmdw 0x00044121#32) = .write 0x21 0x41 4 := by decide
theorem test_decode_read : decode (.cmdw 0b1_000000000000100_00000011_00000011#32) = .read 3 3 4 := by decide
theorem test_decode_read_r9 : decode (.cmdw 0x80041F12#32) = .read 0x12 0x1F 4 := by decide
theorem test_encode_write_w13 : encode (.write 0 0 16) = .cmdw 0x00100000#32 := by decide
theorem test_encode_encodeS : encode (.encodeS 0xE5 0xA2) = .encw 0x0A2E5#17 := by decide
theorem test_table_words :
    decodeTableWord 24 0x1FFFF = some (.encodeR 0xFF 0xFF) ∧ decodeTableWord 17 0 = some (.encodeS 0 0) ∧
    decodeTableWord 32 0x80000001 = some (.read 1 0 0) ∧ decodeTableWord 24 0x20000 = none := by decide
theorem test_reject_byte_count : decodeBytes .command [0, 0, 0] = .error .wrongByteCount := rfl
theorem test_reject_bits_above_encw : decodeBytes .encoder [0, 0, 2] = .error .bitsAboveEncw := rfl

/-! ## Headers (E5, E6, E8, E11, E19, E24) -/

theorem test_header_send :
    encodeHeader .send 3#8 3#8 = 0x518E#16 ∧ encodeHeader .send 37#8 0#8 = 0x5282#16 ∧
    encodeHeader .send 21#8 10#8 = 0x5AAA#16 ∧ encodeHeader .send 17#8 0#8 = 0x5882#16 := by decide
theorem test_header_receive :
    encodeHeader .receive 3#8 3#8 = 0x618C#16 ∧ encodeHeader .receive 16#8 1#8 = 0x6804#16 := by decide

/-! ## Memory -/

theorem test_reset_memory_wf : State.reset.pbuf.wf := by decide
theorem test_write_keeps_order : Memory.write [(1, 5), (3, 6)] 2 7 = [(1, 5), (2, 7), (3, 6)] := by decide

/-! ## Single steps -/

/-- H6: the encoder answers `0x618C` while a command waits, and the command's header stays. -/
theorem test_encodeR_while_busy :
    nextIs (fun t => t.hostLog == [.encHdr 0x618C] && t.hdrR == 0x518E && t.fsm == .txd0)
      (exec (.encodeR 3 3) (running .txd0 .write 2 0 [])) = true := by decide
/-- P2: `ENCODE.S 5, 2` gives `0x528A`, bytes `52 8A`. -/
theorem test_encodeS :
    nextIs (fun t => t.encHdr == 0x528A && t.encByte0 == 0x52 && t.encByte1 == 0x8A)
      (exec (.encodeS 5 2) State.reset) = true := by decide
/-- W1, its first step. -/
theorem test_write_starts :
    nextIs (fun t => t.fsm == .txh0 && t.hdrR == 0x518E && t.lenR == 2 && t.kR == 0 && t.opR == .write &&
      t.cmdPort.valid == false) (step (offering 0x00020303)) = true := by decide
/-- W4: an odd length, `STATW = 0x00010002`. -/
theorem test_write_odd :
    nextIs (fun t => t.statw == 0x00010002 && t.trace == []) (step (offering 0x00030001)) = true := by decide
/-- W15: too long and odd is refused. -/
theorem test_write_too_long_refused : refusedAs .lenAboveMax (step (offering 0x00110303)) = true := by decide
/-- R1, its first step: the `Send` header, also for a READ. -/
theorem test_read_starts :
    nextIs (fun t => t.opR == .read && t.hdrR == 0x518E && t.statw == 0x00000004) (step (offering 0x80040303)) = true := by
  decide
/-- R6: a READ of length 0. -/
theorem test_read_empty : nextIs (fun t => t.statw == 0x00000001) (step (offering 0x80000001)) = true := by decide
/-- W1, its last step. -/
theorem test_write_ends :
    nextIs (fun t => t.statw == 0x00000001 && t.trace == [.tx 2]) (step (running .txd1 .write 2 0 [accepts])) = true := by
  decide
/-- W10: the last byte fails in chunk 3. -/
theorem test_write_fails :
    nextIs (fun t => t.statw == 0x00030003 && t.trace == []) (step (running .txd1 .write 8 3 [fails])) = true := by decide
/-- R12: the second byte is stored and the command ends. -/
theorem test_read_ends :
    nextIs (fun t => t.statw == 0x00000001 && t.pbuf == [(0, 1), (1, 0xCD), (2, 3), (3, 4)])
      (step (running .rxd1 .read 2 0 [gives 0xCD])) = true := by decide
/-- R3: the end of the stream in slice 1. -/
theorem test_read_short :
    nextIs (fun t => t.statw == 0x00010003 && t.trace == [.rx .eof]) (step (running .rxd0 .read 6 1 [atEnd])) = true := by
  decide
/-- H1, H2, H10, H11. -/
theorem test_refusals :
    refusedAs .pbufBusy (step { running .txh0 .write 2 0 [] with host := [.pbw 0 0xFF], turns := [.host] }) = true ∧
    refusedAs .pbufRange (step (acting (.pbw 16 0))) = true ∧
    refusedAs .txBothSignals (step (running .txh0 .write 2 0 [{ accepts with txErr := true }])) = true ∧
    refusedAs .rxMultiSignal (step (running .rxd0 .read 2 0 [{ atEnd with rxValid := true }])) = true := by decide
/-- A length register wider than CMDW's `LEN`: a command of 40000 bytes, offered on the port's fields (R75). -/
theorem test_long_command :
    nextIs (fun t => t.lenR == 40000 && t.fsm == .txh0)
      (step { State.reset with
        params := { maxLen := 65534, lenW := 16 }
        cmdPort := { valid := true, rd := false, phy := 3, reg := 3, len := 40000 } }) = true := by decide
/-- R85: `WRITE 5, 2, 4` of P2 as the host's actions. -/
theorem test_port_actions : portActions (.write 5 2 4) = [issueWord 0x00040205#32, .hold] := by decide
/-- `WAIT` goes by `busy` alone (R85). -/
theorem test_wait :
    nextIs (fun t => t.host == []) (step { offering 7 with host := [.wait], turns := [.host] }) = true ∧
    nextIs (fun t => t.host == [.wait]) (step { running .txh0 .write 2 0 [] with host := [.wait], turns := [.host] }) = true :=
  by decide
/-- H8: reset beats `tx_err`. -/
theorem test_reset_wins :
    nextIs (fun t => t.statw == 0 && t.fsm == .idle)
      (step { running .txd1 .write 2 0 [fails] with turns := [.seqReset] }) = true := by decide

/-! ## For each statement with hypotheses, a state and operands that meet them together, one for each of its clauses -/

theorem test_hyp_HeaderInjectiveOnFiveBitInputs :
    ∃ (d : Direction) (p r : AddrIn), p.toNat = 31 ∧ r.toNat = 31 ∧ p.toNat < 32 ∧ r.toNat < 32 ∧
      encodeHeader d p r = encodeHeader d p r := ⟨.send, 31, 31, by decide⟩
theorem test_hyp_EncodeS : (0x0A2E5#17).getLsbD 16 = false ∧ ∃ t, exec (.encodeS 255 0) State.reset = .next t :=
  ⟨by decide, _, rfl⟩
theorem test_hyp_EncodeR :
    (0x1FFFF#17).getLsbD 16 = true ∧ (∃ t, exec (.encodeR 255 0) State.reset = .next t) ∧
    BlockInv (running .txh1 .read 16 7 []) ∧ (running .txh1 .read 16 7 []).busy = true := ⟨by decide, ⟨_, rfl⟩, by decide⟩
theorem test_hyp_EncoderFrame : ∃ t, exec (.encodeR 0 31) (running .rxd0 .read 2 0 []) = .next t := ⟨_, rfl⟩
theorem test_hyp_AcceptanceFollowsItsBranches :
    (offering 0x00110303).nextTurn = .seq ∧ (offering 0x00110303).cmdPort.valid = true ∧
    (offering 0x00110303).fsm = .idle ∧ (offering 0x00110303).params.maxLen < (offering 0x00110303).cmdPort.len ∧
    (offering 0x00100303).cmdPort.len = (offering 0x00100303).params.maxLen := by decide
theorem test_hyp_WriteAcceptanceCompletes :
    State.reset.fsm = .idle ∧ 16 ≤ State.reset.params.maxLen ∧ 15 ≤ State.reset.params.maxLen ∧
    0 ≤ State.reset.params.maxLen := by decide
theorem test_hyp_ReadAcceptanceCompletes : State.reset.fsm = .idle ∧ 16 ≤ State.reset.params.maxLen := by decide
theorem test_hyp_LengthAboveMaxIsRefused : State.reset.fsm = .idle ∧ State.reset.params.maxLen < 17 := by decide
theorem test_hyp_OfferedCommandWaitsWhileBusy :
    (running .txh0 .write 2 0 []).busy = true ∧ (running .txh0 .write 2 0 []).nextTurn = .seq ∧
    ∃ t, step (running .txh0 .write 2 0 []) = .next t := ⟨by decide, by decide, _, rfl⟩
theorem test_hyp_AcceptanceFrame :
    (∃ t, exec (.write 3 3 3) State.reset = .next t) ∧ (∃ t, exec (.read 3 3 0) State.reset = .next t) ∧
    (∃ t, exec (.write 3 3 16) State.reset = .next t) ∧
    (∃ t, exec (.read 3 3 2) (running .txh0 .write 2 0 []) = .next t) := ⟨⟨_, rfl⟩, ⟨_, rfl⟩, ⟨_, rfl⟩, ⟨_, rfl⟩⟩
theorem test_hyp_ReadSendsTheHeaderOfWrite :
    ∃ t t', exec (.write 35 67 2) State.reset = .next t ∧ exec (.read 35 67 16) State.reset = .next t' ∧
      State.reset.fsm = .idle ∧ t.fsm = .txh0 ∧ t'.fsm = .txh0 := ⟨_, _, rfl, rfl, rfl, rfl, rfl⟩
theorem test_hyp_Txh0 :
    (running .txh0 .read 2 0 [accepts, fails]).nextTurn = .seq ∧ (running .txh0 .read 2 0 [accepts, fails]).fsm = .txh0 ∧
    (running .txh0 .read 2 0 [accepts, fails]).peer = accepts :: [fails] ∧ txAnswer accepts = .ok ∧
    txAnswer fails = .err := by decide
theorem test_hyp_Txh1 :
    (running .txh1 .read 2 0 [accepts]).nextTurn = .seq ∧ (running .txh1 .read 2 0 [accepts]).fsm = .txh1 ∧
    (running .txh1 .read 2 0 [accepts]).peer = accepts :: [] := by decide
theorem test_hyp_Txd0 :
    BlockInv (running .txd0 .write 16 7 [fails]) ∧ (running .txd0 .write 16 7 [fails]).nextTurn = .seq ∧
    (running .txd0 .write 16 7 [fails]).fsm = .txd0 ∧ (running .txd0 .write 16 7 [fails]).peer = fails :: [] := by decide
/-- The last chunk and the one before it. -/
theorem test_hyp_Txd1 :
    (BlockInv (running .txd1 .write 16 7 [accepts]) ∧ (running .txd1 .write 16 7 [accepts]).nextTurn = .seq ∧
      (running .txd1 .write 16 7 [accepts]).fsm = .txd1 ∧ 7 + 1 = 16 / 2) ∧
    BlockInv (running .txd1 .write 16 6 [accepts]) ∧ (running .txd1 .write 16 6 [accepts]).peer = accepts :: [] ∧
      6 + 1 ≠ 16 / 2 := ⟨by decide, by decide⟩
theorem test_hyp_Rxd0 :
    BlockInv (running .rxd0 .read 16 7 [gives 0]) ∧ (running .rxd0 .read 16 7 [gives 0]).nextTurn = .seq ∧
    (running .rxd0 .read 16 7 [gives 0]).fsm = .rxd0 ∧ (running .rxd0 .read 16 7 [gives 0]).peer = gives 0 :: [] ∧
    rxAnswer (gives 0) = .got (.byte 0) := by decide
theorem test_hyp_Rxd1 :
    (BlockInv (running .rxd1 .read 16 7 [gives 0xFF]) ∧ (running .rxd1 .read 16 7 [gives 0xFF]).nextTurn = .seq ∧
      (running .rxd1 .read 16 7 [gives 0xFF]).fsm = .rxd1 ∧ rxAnswer (gives 0xFF) = .got (.byte 0xFF)) ∧
    BlockInv (running .rxd1 .read 16 6 [gives 0xFF]) ∧ (running .rxd1 .read 16 6 [gives 0xFF]).peer = gives 0xFF :: [] :=
  ⟨by decide, by decide⟩
theorem test_hyp_FailedReceiveDrawsItsSlice :
    BlockInv (running .rxd1 .read 16 0 [atEnd]) ∧ (running .rxd1 .read 16 0 [atEnd]).nextTurn = .seq ∧
    (running .rxd1 .read 16 0 [atEnd]).peer = atEnd :: [] ∧ rxAnswer atEnd = .got .eof ∧
    rxAnswer { silent with rxErr := true } = .got .err := by decide
theorem test_hyp_TransferWithoutAnswerWaits :
    (BlockInv (running .txd0 .write 2 0 [silent]) ∧ (running .txd0 .write 2 0 [silent]).txValid = true) ∧
    BlockInv (running .rxd1 .read 2 0 [silent]) ∧ (running .rxd1 .read 2 0 [silent]).rxReady = true ∧
    (running .rxd1 .read 2 0 [silent]).nextTurn = .seq := ⟨by decide, by decide⟩
theorem test_hyp_TransferFrame :
    BlockInv (running .rxd0 .read 4 1 [gives 9]) ∧ (running .rxd0 .read 4 1 [gives 9]).busy = true ∧
    (running .rxd0 .read 4 1 [gives 9]).nextTurn = .seq ∧ ∃ t, step (running .rxd0 .read 4 1 [gives 9]) = .next t :=
  ⟨by decide, by decide, by decide, _, rfl⟩
theorem test_hyp_OneTransferPerStep :
    BlockInv (running .txd1 .write 4 1 [accepts]) ∧ ∃ t, step (running .txd1 .write 4 1 [accepts]) = .next t :=
  ⟨by decide, _, rfl⟩
theorem test_hyp_WriteKeepsPbuf :
    BlockInv (running .txd0 .write 4 1 [fails]) ∧ (running .txd0 .write 4 1 [fails]).busy = true ∧
    (running .txd0 .write 4 1 [fails]).opR = .write ∧ ¬ResetNow (running .txd0 .write 4 1 [fails]) ∧
    ∃ t, step (running .txd0 .write 4 1 [fails]) = .next t := ⟨by decide, by decide, rfl, by decide, _, rfl⟩
theorem test_hyp_ReadNeverReadsPbuf :
    BlockInv (running .rxd1 .read 4 1 [atEnd]) ∧ (running .rxd1 .read 4 1 [atEnd]).busy = true ∧
    (running .rxd1 .read 4 1 [atEnd]).opR = .read ∧ (running .rxd1 .read 4 1 [atEnd]).nextTurn = .seq := by decide
theorem test_hyp_PbufChangesOnlyByItsOwner :
    BlockInv (acting (.pbw 15 7)) ∧
    BlockInv (running .rxd0 .read 4 0 [gives 9]) ∧ ∃ t, step (running .rxd0 .read 4 0 [gives 9]) = .next t ∧
      t.pbufByte 0 ≠ (running .rxd0 .read 4 0 [gives 9]).pbufByte 0 := ⟨by decide, by decide, _, rfl, by decide⟩
/-- An odd length, a failed transfer in chunk 1, and a reset. -/
theorem test_hyp_ErrChunkChangesOnlyOnFailure :
    BlockInv (offering 0x00030001) ∧ BlockInv (running .txd0 .write 4 1 [fails]) ∧
    (∃ t, step (offering 0x00030001) = .next t ∧ t.errChunk ≠ (offering 0x00030001).errChunk) ∧
    (∃ t, step (running .txd0 .write 4 1 [fails]) = .next t ∧ t.errChunk ≠ (running .txd0 .write 4 1 [fails]).errChunk) ∧
    (∃ t, step { acting .rst with errChunk := 1 } = .next t ∧ t.errChunk ≠ 1) :=
  ⟨by decide, by decide, ⟨_, rfl, by decide⟩, ⟨_, rfl, by decide⟩, ⟨_, rfl, by decide⟩⟩
theorem test_hyp_RunningCommandEndsInOneOfItsWays :
    BlockInv (running .txd1 .write 4 1 [accepts]) ∧ (running .txd1 .write 4 1 [accepts]).busy = true ∧
    ∃ t, step (running .txd1 .write 4 1 [accepts]) = .next t ∧ t.busy = false := ⟨by decide, by decide, _, rfl, rfl⟩
theorem test_hyp_RefusalsAreExactlyTheFive :
    BlockInv (offering 0x00110303) ∧ step (offering 0x00110303) = .refused .lenAboveMax := ⟨by decide, rfl⟩
/-- The situation is reached after a step, and a reset is still to come. -/
theorem test_hyp_RefusedRunStaysRefused :
    ∃ s t : State, BlockInv s ∧ core.run 1 s = .next t ∧ RefusalCause t .pbufBusy ∧ HostAction.rst ∈ t.host :=
  ⟨{ offering 0x00020303 with host := [.pbw 0 0, .rst], turns := [.seq, .host, .host] }, _, by decide, rfl,
    ⟨rfl, 0, rfl, .inr ⟨0, rfl⟩⟩, by decide⟩
theorem test_hyp_InvariantStatesNeverFault : BlockInv (running .rxd1 .read 16 7 [atEnd]) := by decide
/-- The fault is there to be ruled out: a state that breaks the invariant raises it. -/
theorem test_fault_outside_invariant :
    step (running .txd0 .write 20 8 [accepts]) = .fault .pbufIndex ∧ ¬BlockInv (running .txd0 .write 20 8 [accepts]) :=
  ⟨rfl, by decide⟩
theorem test_hyp_StepKeepsInvariant :
    BlockInv (offering 0x00100303) ∧ ∃ t, step (offering 0x00100303) = .next t := ⟨by decide, _, rfl⟩
/-- The bounds of `MAX_LEN`, and a `LEN_W` above CMDW's. -/
theorem test_hyp_ResetStateHasInvariant :
    Params.Ok { maxLen := 2, lenW := 2 } ∧ Params.Ok { maxLen := 32766, lenW := 15 } ∧
    Params.Ok { maxLen := 65534, lenW := 16 } ∧ ¬Params.Ok { maxLen := 32768, lenW := 15 } := by decide
/-- For `ResetSetsRegisters`, `ResetForgetsPbuf` and `ResetAbandonsCommand`: both forms of a reset. -/
theorem test_hyp_ResetNow :
    ResetNow { running .txd0 .write 4 1 [accepts] with host := [.rst], turns := [.host] } ∧
    ResetNow { running .txd0 .write 4 1 [accepts] with turns := [.seqReset] } := by decide
theorem test_hyp_ResetBeatsTransferOutcome :
    State.nextTurn { running .txd0 .write 4 1 [accepts] with turns := [.seqReset] } = .seqReset := by decide
/-- A peer with nothing left, and one with entries that do not answer the transfer. -/
theorem test_hyp_OnlyResetEndsStalledCommand :
    (running .txd0 .write 2 0 []).hangs ∧ (running .txd0 .write 2 0 [silent, atEnd]).hangs ∧
    NoReset (running .txd0 .write 2 0 [silent, atEnd]) ∧
    ∃ t, core.run 3 (running .txd0 .write 2 0 [silent, atEnd]) = .next t := ⟨by decide, by decide, by decide, _, rfl⟩
theorem test_hyp_RunningCommandIsLatched :
    (running .txh1 .read 2 0 [accepts]).busy = true ∧ (running .txh1 .read 2 0 [accepts]).nextTurn = .seq := by decide
/-- The last index, the first beyond it, and a busy block. -/
theorem test_hyp_PbufPortAccess :
    (acting (.pbw 15 7)).nextTurn = .host ∧ (acting (.pbw 15 7)).host = .pbw 15 7 :: [] ∧
    (acting (.pbr 16)).host = .pbr 16 :: [] ∧ (acting (.pbr 16)).busy = false ∧ 15 < State.reset.params.maxLen ∧
    State.reset.params.maxLen ≤ 16 ∧ State.busy { acting (.pbr 0) with fsm := .txh0 } = true := by decide
theorem test_hyp_StatusWordLayoutAndRead :
    (acting .stat).nextTurn = .host ∧ (acting .stat).host = .stat :: [] ∧ BlockInv (acting .stat) ∧
    (acting .stat).params.lenW = 15 := by decide
theorem test_hyp_IssueOffersCommandAndHoldsIt :
    (acting (.issue true 0 0 7)).nextTurn = .host ∧ (acting (.issue true 0 0 7)).host = .issue true 0 0 7 :: [] ∧
    (acting (.issue true 0 0 7)).cmdPort.valid = false ∧
    State.nextTurn { offering 7 with host := [issueWord 9], turns := [.host] } = .host ∧
    (offering 7).cmdPort.valid = true := by decide
theorem test_hyp_WaitEndsWhenNotBusy :
    (acting .wait).nextTurn = .host ∧ (acting .wait).host = .wait :: [] ∧ (acting .wait).busy = false ∧
    State.busy { acting .wait with fsm := .rxd0 } = true := by decide
theorem test_hyp_HoldEndsWithAcceptance :
    (acting .hold).nextTurn = .host ∧ (acting .hold).host = .hold :: [] ∧ (acting .hold).cmdPort.valid = false ∧
    (offering 7).cmdPort.valid = true ∧ (Instr.write 3 3 32767).wellFormed = true ∧
    encode (.encodeS 5 2) = .encw 0x00205#17 ∧ encode (.write 3 3 2) = .cmdw 0x00020303#32 := by decide
theorem test_hyp_EndedRunKeepsFinalObservation :
    State.reset.ended ∧ State.reset.cmdPort.valid = false ∧
    State.ended { State.reset with turns := [.host, .seq] } := by decide
/-- With a reset listed, or an action left, a run has not ended; with an offer standing it has (log 20). -/
theorem test_ended_needs_no_host_step :
    ¬State.ended { State.reset with turns := [.seqReset] } ∧ ¬(acting .stat).ended ∧ (offering 0x00020303).ended := by decide
theorem test_hyp_DecodeOfEncodeIsIdentity : (Instr.read 0xFF 0 32767).wellFormed = true := by decide
theorem test_hyp_StepRunsTheDecodedInstruction :
    (acting (.encoder 0x00205)).nextTurn = .host ∧ (acting (.encoder 0x00205)).host = .encoder 0x00205 :: [] ∧
    (offering 0x80040303).nextTurn = .seq ∧ (offering 0x80040303).fsm = .idle ∧
    (offering 0x80040303).cmdPort.valid = true := by decide
theorem test_hyp_FetchWordRunsNext : 0x1FFFF < 2 ^ 17 ∧ 0xFFFFFFFF < 2 ^ 32 ∧ State.reset.fsm = .idle := by decide
theorem test_hyp_RunningCommandFollowsItsStream :
    BlockInv (running .txh0 .write 4 0 [accepts]) ∧ (running .txh0 .write 4 0 [accepts]).busy = true ∧
    Progress [] (running .txh0 .write 4 0 [accepts]) ∧ ∃ t, step (running .txh0 .write 4 0 [accepts]) = .next t :=
  ⟨by decide, by decide, rfl, _, rfl⟩
theorem test_hyp_AcceptanceStartsItsStream :
    BlockInv (offering 0x80040303) ∧ (offering 0x80040303).busy = false ∧
    ∃ t, step (offering 0x80040303) = .next t ∧ t.busy = true := ⟨by decide, by decide, _, rfl, rfl⟩
theorem test_hyp_WriteSuccessTrace :
    ∃ s : State, BlockInv s ∧ s.fsm = .idle ∧ s.turns = [] ∧ s.cmdPort.valid = true ∧ s.cmdPort.rd = false ∧
      s.cmdPort.len % 2 = 0 ∧ 0 < s.cmdPort.len ∧ s.cmdPort.len ≤ s.params.maxLen ∧
      4 * (s.cmdPort.len / 2) ≤ s.peer.length ∧
      ∀ p ∈ s.peer.take (4 * (s.cmdPort.len / 2)), txAnswer p = .ok :=
  ⟨{ offering 0x00020303 with peer := [accepts, accepts, accepts, accepts] }, by decide⟩
/-- W14's failure, on the last byte. -/
theorem test_hyp_WriteFailurePrefix :
    ∃ (s : State) (j : Nat) (bad : PeerSignals), BlockInv s ∧ s.fsm = .idle ∧ s.turns = [] ∧ s.cmdPort.valid = true ∧
      s.cmdPort.rd = false ∧ s.cmdPort.len % 2 = 0 ∧ s.cmdPort.len ≤ s.params.maxLen ∧
      j < 4 * (s.cmdPort.len / 2) ∧ (∀ p ∈ s.peer.take j, txAnswer p = .ok) ∧ s.peer[j]? = some bad ∧
      txAnswer bad = .err :=
  ⟨{ offering 0x00020303 with peer := [accepts, accepts, accepts, fails] }, 3, fails, by decide⟩
/-- R12's peer. -/
theorem test_hyp_ReadSuccessTrace :
    ∃ (s : State) (rx : Nat → Byte), BlockInv s ∧ s.fsm = .idle ∧ s.turns = [] ∧ s.cmdPort.valid = true ∧
      s.cmdPort.rd = true ∧ s.cmdPort.len % 2 = 0 ∧ 0 < s.cmdPort.len ∧
      s.cmdPort.len ≤ s.params.maxLen ∧
      ∀ k < s.cmdPort.len / 2, ∃ p0 p1 p2 p3,
        s.peer[4 * k]? = some p0 ∧ s.peer[4 * k + 1]? = some p1 ∧ s.peer[4 * k + 2]? = some p2 ∧
        s.peer[4 * k + 3]? = some p3 ∧ txAnswer p0 = .ok ∧ txAnswer p1 = .ok ∧
        rxAnswer p2 = .got (.byte (rx (2 * k))) ∧ rxAnswer p3 = .got (.byte (rx (2 * k + 1))) := by
  refine ⟨{ offering 0x80020303 with peer := [accepts, accepts, gives 0xAB, gives 0xCD] },
    fun i => if i = 0 then 0xAB else 0xCD, by decide, rfl, rfl, rfl, rfl, rfl, by decide, by decide, ?_⟩
  intro k hk
  have hk : k < 1 := hk
  obtain rfl : k = 0 := by omega
  exact ⟨accepts, accepts, gives 0xAB, gives 0xCD, rfl, rfl, rfl, rfl, rfl, rfl, rfl, rfl⟩

end Sys2Proof.Tests
end

section
/-! PROOFS. The statements of 00_scope.md. Each operation keeps the invariant, so each agent's turn does, and so does a step
(O36); no turn from a state of the invariant faults (O35); and a step is `exec` of the instruction on the port (O51). -/

namespace Sys2Proof.Machine

variable {s t : State}

/-! ## What each operation does to the invariant -/

/-- The invariant of an idle state: nothing is asked of a running command. -/
theorem blockInv_of_idle (hf : s.fsm = .idle) (hp : s.params.Ok) (hm : s.pbuf.wf)
    (hb : ∀ c ∈ s.pbuf, c.1 < s.params.maxLen) (hw : WidthsOk s) : BlockInv s :=
  ⟨hp, hm, hb, fun h => absurd hf (s.busy_iff.1 h), hw⟩

theorem BlockInv.runningOk (h : BlockInv s) (hf : s.fsm ≠ .idle) : RunningOk s :=
  have ⟨_, _, _, hr, _⟩ := h
  hr (s.busy_iff.2 hf)

/-- The invariant reads neither the ports, the host, the peer and the turns, nor the records and the counts of draws. -/
theorem BlockInv.of_same_block (h : BlockInv s) {c : CmdPort} {p : EncPort} {as : List HostAction}
    {ps : List PeerSignals} {us : List Turn} {tr : List StreamEvent} {log : List HostRead} {e d : Nat} :
    BlockInv { s with
      cmdPort := c, encPort := p, host := as, peer := ps, turns := us, trace := tr, hostLog := log
      pbufEpoch := e, draws := d } := h

/-- R26: a write below `MAX_LEN` keeps PBUF in canonical form and within its capacity. -/
theorem BlockInv.storeByte (h : BlockInv s) {i : Nat} (hi : i < s.params.maxLen) (v : Byte) :
    BlockInv (s.storeByte i v) := by
  obtain ⟨hp, hm, hb, hr, hw⟩ := h
  refine ⟨hp, Memory.wf_write hm i v, fun c hc => ?_, hr, hw⟩
  rcases Memory.mem_write hc with rfl | hc
  · exact hi
  · exact hb c hc

/-- R137: drawing a slice is two writes, and a count that the invariant does not read. -/
theorem BlockInv.drawSlice (h : BlockInv s) (hk : s.chunkBase + 1 < s.params.maxLen) : BlockInv s.drawSlice :=
  have hlow : BlockInv (s.storeByte s.chunkBase (Config.sliceDraw s.draws)) := h.storeByte (Nat.lt_of_succ_lt hk) _
  (hlow.storeByte hk (Config.sliceDraw (s.draws + 1))).of_same_block

/-- R28: a raise ends the command; what it leaves in `ERR_CHUNK` has to fit. -/
theorem BlockInv.raise (h : BlockInv s) (kind : Status) {c : Nat} (hc : 2 * c < 2 ^ s.params.lenW) :
    BlockInv (s.raise kind c) := by
  obtain ⟨hp, hm, hb, -, hlen, hk, -⟩ := h
  exact blockInv_of_idle rfl hp hm hb ⟨hlen, hk, hc⟩

/-- The chunk index of any state that keeps the invariant fits `ERR_CHUNK`. -/
theorem BlockInv.raiseTransport (h : BlockInv s) : BlockInv s.raiseTransport :=
  have ⟨_, _, _, _, _, hk, _⟩ := h
  h.raise .transportError hk

/-- R111: the index reported for an odd length the port can hold fits `ERR_CHUNK`. -/
theorem BlockInv.raiseMalformed (h : BlockInv s) {n : Nat} (hn : n ≤ s.params.maxLen) :
    BlockInv (s.raiseMalformed n) := by
  obtain ⟨⟨-, -, hport⟩, -⟩ := id h
  exact h.raise .malformedPayload (by omega)

theorem BlockInv.completeEmpty (h : BlockInv s) (hf : s.fsm = .idle) : BlockInv s.completeEmpty := by
  obtain ⟨hp, hm, hb, -, hw⟩ := h
  exact blockInv_of_idle hf hp hm hb hw

/-- R111: a command that starts meets every condition on a running one, its `Send` header included (R81). -/
theorem BlockInv.startCommand (h : BlockInv s) (op : Op) (phy reg : AddrIn) {n : Nat} (hn : n ≤ s.params.maxLen)
    (heven : n % 2 = 0) (hpos : 0 < n) : BlockInv (s.startCommand op phy reg n) := by
  obtain ⟨hp, hm, hb, -, -, -, herr⟩ := h
  obtain ⟨-, -, hport⟩ := id hp
  have hlen : n < 2 ^ s.params.lenW := Nat.lt_of_le_of_lt hn hport
  have hrun : RunningOk (s.startCommand op phy reg n) :=
    ⟨heven, hn, by simp only [State.startCommand_kR, State.startCommand_lenR]; omega, rfl,
      encodeHeader_send_pattern phy reg, by simp, by simp⟩
  exact ⟨hp, hm, hb, fun _ => hrun, hlen, Nat.pow_pos Nat.two_pos, herr⟩

/-- R113: a running command may go to any state but a payload state of the other kind. -/
theorem BlockInv.goto (h : BlockInv s) (hf : s.fsm ≠ .idle) {f : Fsm}
    (htx : f = .txd0 ∨ f = .txd1 → s.opR = .write) (hrx : f = .rxd0 ∨ f = .rxd1 → s.opR = .read) :
    BlockInv (s.goto f) := by
  obtain ⟨heven, hmax, hk, hst, hhdr, -, -⟩ := h.runningOk hf
  obtain ⟨hp, hm, hb, -, hw⟩ := h
  exact ⟨hp, hm, hb, fun _ => ⟨heven, hmax, hk, hst, hhdr, htx, hrx⟩, hw⟩

theorem BlockInv.finish (h : BlockInv s) : BlockInv s.finish := by
  obtain ⟨hp, hm, hb, -, hw⟩ := h
  exact blockInv_of_idle rfl hp hm hb hw

/-- R29, R116: `k_r` moves on only while a chunk is left, so it stays in its range. -/
theorem BlockInv.nextChunk (h : BlockInv s) (hf : s.fsm ≠ .idle) (hne : s.kR + 1 ≠ s.lenR / 2) :
    BlockInv s.nextChunk := by
  obtain ⟨heven, hmax, hk, hst, hhdr, -, -⟩ := h.runningOk hf
  obtain ⟨hp, hm, hb, -, hlen, -, herr⟩ := h
  have hk' : s.kR + 1 + 1 ≤ s.lenR / 2 := by omega
  have hw : 2 * (s.kR + 1) < 2 ^ s.params.lenW := by omega
  exact ⟨hp, hm, hb, fun _ => ⟨heven, hmax, hk', hst, hhdr, by simp, by simp⟩, hlen, hw, herr⟩

theorem BlockInv.endChunk (h : BlockInv s) (hf : s.fsm ≠ .idle) : BlockInv s.endChunk := by
  rcases endChunk_cases s with ⟨-, e⟩ | ⟨hne, e⟩
  · exact e ▸ h.finish
  · exact e ▸ h.nextChunk hf hne

/-- A served transfer leads to a state of the invariant. A payload state leads on within its own kind, which the invariant
says of the state it comes from; the header leads to that of `op_r`. -/
theorem BlockInv.advance (h : BlockInv s) (hf : s.fsm ≠ .idle) : BlockInv s.advance := by
  obtain ⟨-, -, -, -, -, htx, hrx⟩ := h.runningOk hf
  cases hs : s.fsm with
  | idle => exact absurd hs hf
  | txh0 => simpa only [State.advance, hs] using h.goto hf (f := .txh1) (by simp) (by simp)
  | txh1 =>
    simp only [State.advance, hs]
    cases hop : s.opR with
    | write => exact h.goto hf (by simp [hop]) (by simp [afterHeader])
    | read => exact h.goto hf (by simp [afterHeader]) (by simp [hop])
  | txd0 => simpa only [State.advance, hs] using h.goto hf (f := .txd1) (fun _ => htx (.inl hs)) (by simp)
  | rxd0 => simpa only [State.advance, hs] using h.goto hf (f := .rxd1) (by simp) (fun _ => hrx (.inl hs))
  | txd1 => simpa only [State.advance, hs] using h.endChunk hf
  | rxd1 => simpa only [State.advance, hs] using h.endChunk hf

/-- R40 to R44: a reset leaves an idle block with an empty list of written bytes and registers at 0. -/
theorem BlockInv.applyReset (h : BlockInv s) : BlockInv s.applyReset := by
  obtain ⟨hp, -⟩ := h
  have hpow : 0 < 2 ^ s.params.lenW := Nat.pow_pos Nat.two_pos
  exact blockInv_of_idle rfl hp Memory.wf_nil (by simp) ⟨hpow, hpow, hpow⟩

/-! ## Turns and steps -/

theorem State.rxIndex_le (s : State) : s.rxIndex ≤ s.chunkBase + 1 := by
  unfold State.rxIndex
  split <;> omega

theorem seqTurn_keeps_blockInv (h : BlockInv s) (e : seqTurn s = .next t) : BlockInv t := by
  have hoffer : BlockInv s.takeOffer := h.of_same_block
  rcases seqTurn_cases h.chunk_in_pbuf e with ⟨rfl, -⟩ | ⟨-, -, -, hmax, rfl⟩ | ⟨hf, -, -, rfl⟩ |
    ⟨-, -, hmax, heven, hpos, rfl⟩ | ⟨hf, p, rest, u, -, rfl, htransfer⟩
  · exact h
  · exact hoffer.raiseMalformed hmax
  · exact hoffer.completeEmpty hf
  · exact hoffer.startCommand _ _ _ hmax heven hpos
  · have hk : s.chunkBase + 1 < s.params.maxLen := h.chunk_in_pbuf hf
    have hu : BlockInv { s with peer := rest } := h.of_same_block
    rcases htransfer with rfl | ⟨b, -, -, -, rfl⟩ | ⟨-, -, rfl⟩ | ⟨v, -, -, rfl⟩ | ⟨o, -, -, -, rfl⟩
    · exact hu
    · have hsent : BlockInv (State.deliver { s with peer := rest } b) := hu.of_same_block
      exact hsent.advance hf
    · exact hu.raiseTransport
    · have hgot : BlockInv (State.consume { s with peer := rest } (.byte v)) := hu.of_same_block
      exact (hgot.storeByte (Nat.lt_of_le_of_lt s.rxIndex_le hk) v).advance hf
    · have hgot : BlockInv (State.consume { s with peer := rest } o) := hu.of_same_block
      exact (hgot.drawSlice hk).raiseTransport

theorem hostTurn_keeps_blockInv (h : BlockInv s) (e : hostTurn s = .next t) : BlockInv t := by
  rcases hostTurn_cases e with rfl | ⟨a, rest, -, hact⟩
  · exact h
  · have hrest : BlockInv { s with host := rest } := h.of_same_block
    rcases hact with ⟨p, rfl⟩ | ⟨p, rfl⟩ | ⟨i, b, -, -, hi, rfl⟩ | ⟨r, rfl⟩ | ⟨-, -, rfl⟩ | ⟨-, rfl⟩
    · exact hrest.of_same_block
    · exact hrest.of_same_block
    · exact hrest.storeByte hi b
    · exact hrest.of_same_block
    · exact hrest.of_same_block
    · exact hrest.applyReset

theorem BlockInv.resetDuring (h : BlockInv s) : BlockInv (resetDuring s) := by
  unfold Machine.resetDuring
  split <;> exact h.applyReset

theorem step_keeps_blockInv (h : BlockInv s) (e : step s = .next t) : BlockInv t := by
  have hdrop : BlockInv s.dropTurn := h.of_same_block
  cases hu : s.nextTurn with
  | host => exact hostTurn_keeps_blockInv hdrop (step_host hu ▸ e)
  | seq => exact seqTurn_keeps_blockInv hdrop (step_seq hu ▸ e)
  | seqReset =>
    rw [step_seqReset hu] at e
    cases e
    exact hdrop.resetDuring

/-- Settles O36: a step is a turn of one agent, and each agent's turn keeps the invariant. -/
theorem stepKeepsInvariant : Obligations.StepKeepsInvariant := fun _ _ => step_keeps_blockInv

/-! ## No fault -/

theorem acceptCommand_ne_fault (op : Op) (phy reg : AddrIn) (n : Nat) (s : State) (f : Fault) :
    acceptCommand op phy reg n s ≠ .fault f := by
  rcases acceptCommand_cases op phy reg n s with
    ⟨_, e⟩ | ⟨_, _, e⟩ | ⟨_, _, _, e⟩ | ⟨_, _, e⟩ | ⟨_, _, _, _, e⟩ <;> simp [e]

theorem exec_ne_fault (i : Instr) (s : State) (f : Fault) : exec i s ≠ .fault f := by
  cases i with
  | encodeS phy reg => simp [exec, execEncodeS]
  | encodeR phy reg => simp [exec, execEncodeR]
  | write phy reg n => exact acceptCommand_ne_fault .write phy reg n s f
  | read phy reg n => exact acceptCommand_ne_fault .read phy reg n s f

theorem hostAccess_ne_fault (i : Nat) (s t : State) (f : Fault) : hostAccess i s t ≠ .fault f := by
  rcases hostAccess_cases i s t with ⟨_, e⟩ | ⟨_, _, e⟩ | ⟨_, _, e⟩ <;> simp [e]

/-- The host reaches PBUF through accesses that are refused out of range, so it raises no fault in any state. -/
theorem hostAct_ne_fault (a : HostAction) (rest : List HostAction) (s : State) (f : Fault) :
    hostAct a rest s ≠ .fault f := by
  cases a with
  | encoder w => exact exec_ne_fault _ _ f
  | pbw i b => exact hostAccess_ne_fault i _ _ f
  | pbr i => exact hostAccess_ne_fault i _ _ f
  | issue rd phy reg len => simp only [hostAct]; split <;> simp
  | hold => simp only [hostAct]; split <;> simp
  | wait => simp only [hostAct]; split <;> simp
  | drive p => simp [hostAct]
  | stat => simp [hostAct]
  | rst => simp [hostAct]

theorem hostTurn_ne_fault (s : State) (f : Fault) : hostTurn s ≠ .fault f := by
  unfold hostTurn
  split
  · simp
  · exact hostAct_ne_fault _ _ s f

/-- A transfer faults only outside PBUF (R13). -/
theorem transfer_ne_fault (p : PeerSignals) (hk : s.chunkBase + 1 < s.params.maxLen) (hb : s.fsm ≠ .idle) (f : Fault) :
    transfer p s ≠ .fault f := by
  rcases transfer_cases p hk hb with ⟨_, e⟩ | ⟨_, _, _, _, e⟩ | ⟨_, _, e⟩ | ⟨_, _, _, e⟩ | ⟨_, _, _, _, e⟩ |
    ⟨_, _, e⟩ | ⟨_, _, e⟩ <;> simp [e]

theorem seqTurn_ne_fault (h : BlockInv s) (f : Fault) : seqTurn s ≠ .fault f := by
  by_cases hf : s.fsm = .idle
  · cases hv : s.cmdPort.valid with
    | false => simp [seqTurn_idle hf hv]
    | true => exact seqTurn_accept hf hv ▸ acceptCommand_ne_fault _ _ _ _ _ f
  · cases hp : s.peer with
    | nil => simp [seqTurn_silent hf hp]
    | cons p rest =>
      exact seqTurn_transfer hf hp ▸ transfer_ne_fault (s := { s with peer := rest }) p (h.chunk_in_pbuf hf) hf f

/-- Settles O35: only a transfer can leave PBUF, and the invariant keeps the running command's chunk within it. -/
theorem invariantStatesNeverFault : Obligations.InvariantStatesNeverFault := by
  intro s f h
  cases hu : s.nextTurn with
  | host => exact step_host hu ▸ hostTurn_ne_fault _ f
  | seq => exact step_seq hu ▸ seqTurn_ne_fault (s := s.dropTurn) h f
  | seqReset => simp [step_seqReset hu]

/-! ## The instruction a step runs -/

/-- A host whose next action is an encoder word runs the operation the word decodes to (R36, R76). -/
theorem step_encoder {w : BitVec 17} {rest : List HostAction} (hu : s.nextTurn = .host)
    (hh : s.host = .encoder w :: rest) :
    step s = exec (decode (.encw w)) { s with turns := s.turns.tail, host := rest } := by
  have hh' : s.dropTurn.host = .encoder w :: rest := hh
  rw [step_host hu, hostTurn, hh']
  rfl

/-- A sequencer in `IDLE` runs the operation offered on the command port, and its offer ends (R33, log 4). -/
theorem step_offer (hu : s.nextTurn = .seq) (hf : s.fsm = .idle) (hv : s.cmdPort.valid = true) :
    step s = exec (offered s.cmdPort)
      { s with turns := s.turns.tail, cmdPort := { s.cmdPort with valid := false } } := by
  rw [step_seq hu, seqTurn_accept (s := s.dropTurn) hf hv, exec_offered]
  rfl

/-- The bit `RD` of a command word, as the field that packs it. -/
theorem ite_getLsbD_eq_extractLsb' {n : Nat} (w : BitVec n) (i : Nat) :
    (if w.getLsbD i then 1 else 0 : BitVec 1) = w.extractLsb' i 1 := by
  apply BitVec.eq_of_getLsbD_eq
  intro j hj
  obtain rfl : j = 0 := by omega
  rw [BitVec.getLsbD_extractLsb']
  cases w.getLsbD i <;> simp

/-- R75: a command word is packed from its fields, which adjoin each other and cover its 32 bits. -/
theorem wordOfCmdPort_cmdPortOfWord (w : BitVec 32) : wordOfCmdPort (cmdPortOfWord w) = w := by
  have hrd : (if (cmdPortOfWord w).rd then 1 else 0 : BitVec 1) = w.extractLsb' 31 1 :=
    ite_getLsbD_eq_extractLsb' w 31
  have hlen : BitVec.ofNat 15 (cmdPortOfWord w).len = w.extractLsb' 16 15 := by
    simp only [cmdPortOfWord, cmdwLen, BitVec.ofNat_toNat, BitVec.setWidth_eq]
  calc wordOfCmdPort (cmdPortOfWord w)
    _ = w.extractLsb' 31 1 ++ w.extractLsb' 16 15 ++ w.extractLsb' 8 8 ++ w.extractLsb' 0 8 := by
      rw [wordOfCmdPort, hrd, hlen]
      rfl
    _ = w.extractLsb' 0 32 := by
      rw [BitVec.extractLsb'_append_extractLsb'_eq_extractLsb' (start₁ := 16) (len₁ := 15) rfl,
        BitVec.extractLsb'_append_extractLsb'_eq_extractLsb' (start₁ := 8) (len₁ := 8) rfl,
        BitVec.extractLsb'_append_extractLsb'_eq_extractLsb' (start₁ := 0) (len₁ := 8) rfl]
    _ = w := BitVec.extractLsb'_eq_self

/-- Settles O51: each port's step is `exec` of its operation, and `offered_eq_decode` ties the command port's fields to the
word they pack. -/
theorem stepRunsTheDecodedInstruction : Obligations.StepRunsTheDecodedInstruction := by
  refine ⟨fun _ _ _ => step_encoder, fun s hu hf hv => ⟨step_offer hu hf hv, fun hlen => ?_⟩,
    wordOfCmdPort_cmdPortOfWord⟩
  rw [← offered_eq_decode hlen]
  exact step_offer hu hf hv

end Sys2Proof.Machine
end

section
/-! PROOFS. The statements of 10_state.md: the host's actions at its ports (O44 to O46, O58), reset (O37 to O39), and
the sequencer's step while a command runs, which keeps what is latched (O15, O25, O26) and writes `ERR_CHUNK` only when the
transfer fails (O31). -/

namespace Sys2Proof.Machine

variable {s t u : State}

/-! ## The host's ports -/

/-- R85: the host takes the action at the head of its program. -/
theorem step_hostAct {a : HostAction} {rest : List HostAction} (hu : s.nextTurn = .host) (hh : s.host = a :: rest) :
    step s = hostAct a rest s.dropTurn := by
  have hh' : s.dropTurn.host = a :: rest := hh
  rw [step_host hu, hostTurn, hh']

theorem step_pbw {i : Nat} {b : Byte} {rest : List HostAction} (hu : s.nextTurn = .host)
    (hh : s.host = .pbw i b :: rest) :
    step s = hostAccess i s (State.storeByte { s with turns := s.turns.tail, host := rest } i b) :=
  step_hostAct hu hh

theorem step_pbr {i : Nat} {rest : List HostAction} (hu : s.nextTurn = .host) (hh : s.host = .pbr i :: rest) :
    step s = hostAccess i s
      (State.record { s with turns := s.turns.tail, host := rest } (.pbRdata i (s.pbufByte i))) :=
  step_hostAct hu hh

theorem hostAccess_of_busy (hb : s.busy = true) (i : Nat) (t : State) : hostAccess i s t = .refused .pbufBusy :=
  if_pos hb

theorem hostAccess_of_range {i : Nat} (hb : s.busy = false) (hi : s.params.maxLen ≤ i) (t : State) :
    hostAccess i s t = .refused .pbufRange := by
  simp [hostAccess, hb, hi]

theorem hostAccess_of_lt {i : Nat} (hb : s.busy = false) (hi : i < s.params.maxLen) (t : State) :
    hostAccess i s t = .next t := by
  simp [hostAccess, hb, Nat.not_le.2 hi]

/-- Settles O44: `hostAccess` decides both accesses alike, and an allowed write stores its one byte. -/
theorem pbufPortAccess : Obligations.PbufPortAccess := by
  intro s i b rest hu
  refine ⟨fun hh => ?_, fun hh => ?_⟩
  · rw [step_pbw hu hh]
    exact ⟨fun hb => hostAccess_of_busy hb i _, fun hb hi => hostAccess_of_range hb hi _,
      fun hb hi => ⟨_, hostAccess_of_lt hb hi _, rfl, fun j => State.pbufByte_storeByte _ i j b⟩⟩
  · rw [step_pbr hu hh]
    exact ⟨fun hb => hostAccess_of_busy hb i _, fun hb hi => hostAccess_of_range hb hi _,
      fun hb hi => hostAccess_of_lt hb hi _⟩

/-- Settles O46: whether an issue waits depends on `cmd_valid` alone. -/
theorem issueOffersCommandAndHoldsIt : Obligations.IssueOffersCommandAndHoldsIt := by
  refine ⟨fun s rd phy reg len rest hu hh => ?_, fun _ => rfl⟩
  rw [step_hostAct hu hh]
  exact ⟨fun hv => if_neg (by simp [hv]), fun hv => if_pos hv⟩

/-- A command word that decodes to the operation on the port is issued by the port's fields (R75, R80). -/
theorem issueWord_of_offered_eq {w : BitVec 32} {p : CmdPort} (h : offered p = decodeCmdw w) :
    issueWord w = .issue p.rd p.phy p.reg p.len := by
  unfold offered decodeCmdw at h
  cases hp : p.rd <;> cases hw : w.getLsbD 31 <;> simp_all [issueWord]

theorem issueWord_wordOfCmdPort {p : CmdPort} (h : p.len < lenBound) :
    issueWord (wordOfCmdPort p) = .issue p.rd p.phy p.reg p.len :=
  issueWord_of_offered_eq (offered_eq_decode h)

theorem portActions_of_encw {i : Instr} {w : BitVec 17} (h : encode i = .encw w) : portActions i = [.encoder w] := by
  cases i <;> cases h <;> rfl

theorem portActions_of_cmdw {i : Instr} {w : BitVec 32} (hi : i.wellFormed = true) (h : encode i = .cmdw w) :
    portActions i = [issueWord w, .hold] := by
  cases i with
  | encodeS phy reg => cases h
  | encodeR phy reg => cases h
  | write phy reg n =>
    cases h
    have hword := issueWord_wordOfCmdPort (p := ⟨true, false, phy, reg, n⟩) (of_decide_eq_true hi)
    exact congrArg (fun a => [a, HostAction.hold]) hword.symm
  | read phy reg n =>
    cases h
    have hword := issueWord_wordOfCmdPort (p := ⟨true, true, phy, reg, n⟩) (of_decide_eq_true hi)
    exact congrArg (fun a => [a, HostAction.hold]) hword.symm

/-- Settles O58: a hold goes by `cmd_valid` alone, and each line's actions are read off its word. -/
theorem holdEndsWithAcceptance : Obligations.HoldEndsWithAcceptance := by
  refine ⟨fun s rest hu hh => ?_, fun i hi => ⟨fun _ => portActions_of_encw, fun _ => portActions_of_cmdw hi⟩⟩
  rw [step_hostAct hu hh]
  exact ⟨fun hv => if_neg (by simp [hv]), fun hv => if_pos hv⟩

/-! ## The status word -/

/-- R35: STATW appends its fields, so each is found at the widths of those below it. -/
theorem packStatw_fields (p : StatusPort) :
    (packStatw p).extractLsb' 0 2 = p.status ∧ (packStatw p).getLsbD 2 = p.busy ∧
    (packStatw p).extractLsb' 3 13 = 0#13 ∧ (packStatw p).extractLsb' 16 14 = BitVec.ofNat 14 p.errChunk ∧
    (packStatw p).extractLsb' 30 2 = 0#2 := by
  unfold packStatw
  refine ⟨BitVec.extractLsb'_append_eq_right, ?_, ?_, ?_, ?_⟩
  · simp only [BitVec.getLsbD_append]
    simp
  · rw [BitVec.extractLsb'_append_eq_of_le (by decide), BitVec.extractLsb'_append_eq_of_le (by decide)]
    exact BitVec.extractLsb'_append_eq_right
  · rw [BitVec.extractLsb'_append_eq_of_le (by decide), BitVec.extractLsb'_append_eq_of_le (by decide),
      BitVec.extractLsb'_append_eq_of_le (by decide)]
    exact BitVec.extractLsb'_append_eq_right
  · rw [BitVec.extractLsb'_append_eq_of_le (by decide), BitVec.extractLsb'_append_eq_of_le (by decide),
      BitVec.extractLsb'_append_eq_of_le (by decide)]
    exact BitVec.extractLsb'_append_eq_left

/-- R28: with `LEN_W = 15`, the width of `ERR_CHUNK` is that of its field in STATW. -/
theorem BlockInv.errChunk_lt (h : BlockInv s) (hw : s.params.lenW = 15) : s.errChunk < 2 ^ 14 := by
  obtain ⟨-, -, -, -, -, -, herr⟩ := h
  rw [hw] at herr
  omega

theorem State.statw_applyReset (s : State) : s.applyReset.statw = 0#32 := by
  have hport : s.applyReset.statusPort = { busy := false, status := 0, errChunk := 0 } := rfl
  rw [State.statw, hport]
  decide

/-- Settles O45: the fields are those of any packed status port, and `STAT` only records the port. -/
theorem statusWordLayoutAndRead : Obligations.StatusWordLayoutAndRead := by
  refine ⟨⟨rfl, rfl, rfl, rfl⟩, fun s => ?_, fun s rest hu hh => step_hostAct hu hh⟩
  obtain ⟨hstatus, hbusy, hlow, herr, hhigh⟩ := packStatw_fields s.statusPort
  refine ⟨hstatus, hbusy, hlow, herr, hhigh, s.statw_applyReset, fun h hw => ?_⟩
  calc (s.statw.extractLsb' 16 14).toNat
    _ = s.errChunk % 2 ^ 14 := congrArg BitVec.toNat herr
    _ = s.errChunk := Nat.mod_eq_of_lt (h.errChunk_lt hw)

/-! ## Reset -/

theorem blockInv_resetWith {p : Params} (hp : p.Ok) : BlockInv (State.resetWith p) :=
  have hpow : 0 < 2 ^ p.lenW := Nat.pow_pos Nat.two_pos
  blockInv_of_idle rfl hp Memory.wf_nil (List.forall_mem_nil _) ⟨hpow, hpow, hpow⟩

/-- Settles O37: the block is idle with an empty list of written bytes and registers at 0, which fit every width. -/
theorem resetStateHasInvariant : Obligations.ResetStateHasInvariant :=
  ⟨fun _ => blockInv_resetWith, blockInv_resetWith (p := Params.vectors) (by decide)⟩

/-- R160: a reset in the sequencer's turn is a reset that uses up the peer's entry of a transfer (log 14). -/
theorem resetDuring_eq (s : State) :
    resetDuring s = { s.applyReset with peer := if s.busy = true then s.peer.tail else s.peer } := by
  unfold resetDuring
  split <;> rfl

/-- R39, R160: in both forms of a reset, `applyReset` is all that happens to the block. -/
theorem ResetNow.step_eq (h : ResetNow s) :
    ∃ as ps, step s = .next { s.applyReset with turns := s.turns.tail, host := as, peer := ps } := by
  rcases h with hu | ⟨hu, hh⟩
  · rw [step_seqReset hu, resetDuring_eq]
    exact ⟨_, _, rfl⟩
  · obtain ⟨rest, hh⟩ := List.head?_eq_some_iff.1 hh
    exact ⟨rest, s.peer, step_hostAct hu hh⟩

/-- Settles O38: every register is at the value `applyReset` gives it, and no port input or parameter is touched. -/
theorem resetSetsRegisters : Obligations.ResetSetsRegisters := by
  refine ⟨fun s h => ?_, rfl, rfl, rfl, rfl, rfl, rfl, rfl⟩
  obtain ⟨as, ps, e⟩ := h.step_eq
  exact ⟨_, e, rfl, rfl, rfl, rfl, rfl, rfl, rfl, rfl, rfl, rfl, rfl, rfl⟩

/-- R180: a reset overwrites PBUF without reading it. -/
theorem ResetNow.step_of_pbuf (h : ResetNow s) (m : Memory) : step { s with pbuf := m } = step s := by
  rcases h with hu | ⟨hu, hh⟩
  · rw [step_seqReset hu, step_seqReset (s := { s with pbuf := m }) hu, resetDuring_eq, resetDuring_eq]
    rfl
  · obtain ⟨rest, hh⟩ := List.head?_eq_some_iff.1 hh
    rw [step_hostAct hu hh, step_hostAct (s := { s with pbuf := m }) hu hh]
    rfl

/-- Settles O39: PBUF lists nothing after a reset, so every byte reads as the draw of the new reset's number. -/
theorem resetForgetsPbuf : Obligations.ResetForgetsPbuf := by
  refine fun s h => ⟨h.step_of_pbuf, ?_⟩
  obtain ⟨as, ps, e⟩ := h.step_eq
  exact ⟨_, e, rfl, s.pbufByte_applyReset⟩

/-! ## What a transfer leaves as it is -/

/-- `t` differs from `s` at most in what a transfer may change: not in the latched command, the ports, the parameters,
the host, its reads, the peer, the turns and the number of resets. -/
def KeepsLatched (s t : State) : Prop :=
  ∃ f k st c m tr d,
    t = { s with fsm := f, kR := k, status := st, errChunk := c, pbuf := m, trace := tr, draws := d }

theorem KeepsLatched.trans (h : KeepsLatched s t) (h' : KeepsLatched t u) : KeepsLatched s u := by
  obtain ⟨_, _, _, _, _, _, _, rfl⟩ := h
  obtain ⟨_, _, _, _, _, _, _, rfl⟩ := h'
  exact ⟨_, _, _, _, _, _, _, rfl⟩

/-- R116: the end of a chunk changes `fsm`, `k_r` and `STATUS` at most. -/
theorem State.endChunk_frame (s : State) : ∃ f k st, s.endChunk = { s with fsm := f, kR := k, status := st } := by
  rcases endChunk_cases s with ⟨-, e⟩ | ⟨-, e⟩ <;> exact ⟨_, _, _, e⟩

/-- R112 to R116: so does going on from any served transfer. -/
theorem State.advance_frame (s : State) : ∃ f k st, s.advance = { s with fsm := f, kR := k, status := st } := by
  unfold State.advance
  cases s.fsm with
  | txd1 => exact s.endChunk_frame
  | rxd1 => exact s.endChunk_frame
  | idle | txh0 | txh1 | txd0 | rxd0 => exact ⟨_, _, _, rfl⟩

@[simp] theorem State.advance_errChunk (s : State) : s.advance.errChunk = s.errChunk := by
  obtain ⟨f, k, st, e⟩ := s.advance_frame
  rw [e]

@[simp] theorem State.advance_pbufByte (s : State) : s.advance.pbufByte = s.pbufByte := by
  obtain ⟨f, k, st, e⟩ := s.advance_frame
  rw [e]
  rfl

theorem goto_keepsLatched (f : State → Fsm) (s : State) : KeepsLatched s (s.goto (f s)) :=
  ⟨_, _, _, _, _, _, _, rfl⟩

theorem endChunk_keepsLatched (s : State) : KeepsLatched s s.endChunk := by
  obtain ⟨f, k, st, e⟩ := s.endChunk_frame
  exact ⟨_, _, _, _, _, _, _, e⟩

theorem streamPut_keepsLatched {b : Byte} {p : PeerSignals} {onOk : State → State}
    (hok : ∀ v, KeepsLatched v (onOk v)) (h : streamPut b p onOk s = .next t) : KeepsLatched s t := by
  rcases streamPut_cases b p onOk s with ⟨-, e⟩ | ⟨-, e⟩ | ⟨-, e⟩ | ⟨-, e⟩ <;> rw [e] at h <;> cases h
  · exact ⟨_, _, _, _, _, _, _, rfl⟩
  · exact .trans ⟨_, _, _, _, _, _, _, rfl⟩ (hok _)
  · exact ⟨_, _, _, _, _, _, _, rfl⟩

theorem streamGet_keepsLatched {i : Nat} {p : PeerSignals} {onByte : State → State}
    (hbyte : ∀ v, KeepsLatched v (onByte v)) (h : streamGet i p onByte s = .next t) : KeepsLatched s t := by
  rcases streamGet_cases i p onByte s with ⟨-, e⟩ | ⟨v, -, e⟩ | ⟨o, -, -, e⟩ | ⟨-, e⟩ <;> rw [e] at h <;> cases h
  · exact ⟨_, _, _, _, _, _, _, rfl⟩
  · exact .trans ⟨_, _, _, _, _, _, _, rfl⟩ (hbyte _)
  · exact ⟨_, _, _, _, _, _, _, rfl⟩

theorem eq_next_of_inPbuf {r : Result} (h : inPbuf s r = .next t) : r = .next t := by
  unfold inPbuf at h
  split at h
  · exact h
  · cases h

/-- In any state, the invariant's or not: a transfer outside PBUF is a fault and no next state. -/
theorem transfer_keepsLatched {p : PeerSignals} (h : transfer p s = .next t) : KeepsLatched s t := by
  cases hf : s.fsm <;> simp only [transfer, hf] at h
  case idle => cases h; exact ⟨_, _, _, _, _, _, _, rfl⟩
  case txh0 => exact streamPut_keepsLatched (goto_keepsLatched fun _ => .txh1) h
  case txh1 => exact streamPut_keepsLatched (goto_keepsLatched fun v => afterHeader v.opR) h
  case txd0 => exact streamPut_keepsLatched (goto_keepsLatched fun _ => .txd1) (eq_next_of_inPbuf h)
  case txd1 => exact streamPut_keepsLatched endChunk_keepsLatched (eq_next_of_inPbuf h)
  case rxd0 => exact streamGet_keepsLatched (goto_keepsLatched fun _ => .rxd1) (eq_next_of_inPbuf h)
  case rxd1 => exact streamGet_keepsLatched endChunk_keepsLatched (eq_next_of_inPbuf h)

/-! ## The sequencer's step while a command runs -/

theorem State.dropTurn_eq_used (hp : s.peer = []) : s.dropTurn = s.used s.peer.tail := by
  have htail : s.peer.tail = s.peer := by rw [hp, List.tail_nil]
  rw [htail]
  rfl

/-- The turn and the peer's entry are used up (log 2, log 3); what is latched stays. -/
theorem running_step_keepsLatched (hf : s.fsm ≠ .idle) (hu : s.nextTurn = .seq) (h : step s = .next t) :
    KeepsLatched (s.used s.peer.tail) t := by
  rw [step_seq hu] at h
  cases hp : s.peer with
  | nil =>
    rw [seqTurn_silent (s := s.dropTurn) hf hp, State.dropTurn_eq_used hp, hp] at h
    cases h
    exact ⟨_, _, _, _, _, _, _, rfl⟩
  | cons p rest =>
    rw [seqTurn_transfer (s := s.dropTurn) hf hp] at h
    exact transfer_keepsLatched h

theorem acceptCommand_of_busy (hb : s.busy = true) (op : Op) (phy reg : AddrIn) (n : Nat) :
    acceptCommand op phy reg n s = .next s :=
  if_pos hb

/-- Settles O15: acceptance does nothing while busy, and a transfer keeps the command port. -/
theorem offeredCommandWaitsWhileBusy : Obligations.OfferedCommandWaitsWhileBusy := by
  refine ⟨fun phy reg n s hb => ⟨acceptCommand_of_busy hb .write phy reg n, acceptCommand_of_busy hb .read phy reg n⟩,
    fun s t hb hu h => ?_⟩
  obtain ⟨_, _, _, _, _, _, _, rfl⟩ := running_step_keepsLatched (s.busy_iff.1 hb) hu h
  rfl

theorem txAnswer_eq_waits_iff (p : PeerSignals) : txAnswer p = .waits ↔ p.txReady = false ∧ p.txErr = false := by
  unfold txAnswer
  cases p.txReady <;> cases p.txErr <;> simp

theorem rxAnswer_eq_waits_iff (p : PeerSignals) :
    rxAnswer p = .waits ↔ p.rxValid = false ∧ p.rxEof = false ∧ p.rxErr = false := by
  unfold rxAnswer
  cases p.rxValid <;> cases p.rxEof <;> cases p.rxErr <;> simp

theorem State.fsm_ne_idle_of_txValid (h : s.txValid = true) : s.fsm ≠ .idle := by
  intro hf
  simp [State.txValid, hf] at h

theorem State.fsm_ne_idle_of_rxReady (h : s.rxReady = true) : s.fsm ≠ .idle := by
  intro hf
  simp [State.rxReady, hf] at h

/-- R37, R38: no state waits on both directions of the stream. -/
theorem State.not_txValid_and_rxReady (s : State) : ¬(s.txValid = true ∧ s.rxReady = true) := by
  unfold State.txValid State.rxReady
  cases s.fsm <;> simp

theorem transfer_of_silentUnder {p : PeerSignals} (hk : s.chunkBase + 1 < s.params.maxLen) (hf : s.fsm ≠ .idle)
    (h : s.silentUnder p) : transfer p s = .next s := by
  obtain ⟨htx, hrx⟩ := h
  rcases transfer_cases p hk hf with ⟨-, e⟩ | ⟨_, -, hv, ha, -⟩ | ⟨hv, ha, -⟩ | ⟨_, hv, ha, -⟩ | ⟨_, hv, -, ha, -⟩ |
    ⟨hv, ha, -⟩ | ⟨hv, ha, -⟩
  · exact e
  · cases (htx hv).symm.trans ha
  · cases (htx hv).symm.trans ha
  · cases (hrx hv).symm.trans ha
  · cases (hrx hv).symm.trans ha
  · cases (htx hv).symm.trans ha
  · cases (hrx hv).symm.trans ha

/-- Settles O25: without a signal of its direction a transfer has no answer, and then it changes nothing. -/
theorem transferWithoutAnswerWaits : Obligations.TransferWithoutAnswerWaits := by
  intro s p rest hinv hu hp hsilent
  obtain ⟨hf, hs⟩ : s.fsm ≠ .idle ∧ s.silentUnder p := by
    rcases hsilent with ⟨htx, hsig⟩ | ⟨hrx, hsig⟩
    · exact ⟨State.fsm_ne_idle_of_txValid htx, fun _ => (txAnswer_eq_waits_iff p).2 hsig,
        fun hrx => absurd ⟨htx, hrx⟩ s.not_txValid_and_rxReady⟩
    · exact ⟨State.fsm_ne_idle_of_rxReady hrx, fun htx => absurd ⟨htx, hrx⟩ s.not_txValid_and_rxReady,
        fun _ => (rxAnswer_eq_waits_iff p).2 hsig⟩
  rw [step_seq hu, seqTurn_transfer (s := s.dropTurn) hf hp]
  exact transfer_of_silentUnder (s := s.used rest) (hinv.chunk_in_pbuf hf) hf hs

/-- What the sequencer's step can do while a command runs, when it is not refused: `seqTurn_cases` of a running command,
with the turn used up. -/
theorem running_step_cases (hinv : BlockInv s) (hf : s.fsm ≠ .idle) (hu : s.nextTurn = .seq) (h : step s = .next t) :
    t = s.used s.peer.tail ∨
    (∃ b, s.txData = some b ∧ s.txValid = true ∧ t = ((s.used s.peer.tail).deliver b).advance) ∨
    (s.txValid = true ∧ t = (s.used s.peer.tail).raise .transportError s.kR) ∨
    (∃ v, s.rxReady = true ∧ t = (((s.used s.peer.tail).consume (.byte v)).storeByte s.rxIndex v).advance) ∨
    (∃ o, s.rxReady = true ∧ (o = .eof ∨ o = .err) ∧
      t = ((s.used s.peer.tail).consume o).drawSlice.raise .transportError s.kR) := by
  rw [step_seq hu] at h
  rcases seqTurn_cases (s := s.dropTurn) hinv.chunk_in_pbuf h with ⟨rfl, hidle | hp⟩ | ⟨hidle, -⟩ | ⟨hidle, -⟩ |
    ⟨hidle, -⟩ | ⟨-, p, rest, u, hp, rfl, htransfer⟩
  · exact absurd hidle hf
  · exact .inl (State.dropTurn_eq_used hp)
  · exact absurd hidle hf
  · exact absurd hidle hf
  · exact absurd hidle hf
  · rw [State.dropTurn_peer] at hp
    rw [hp, List.tail_cons]
    rcases htransfer with e | ⟨b, hb, hv, -, e⟩ | ⟨hv, -, e⟩ | ⟨v, hv, -, e⟩ | ⟨o, hv, ho, -, e⟩
    · exact .inl e
    · exact .inr (.inl ⟨b, hb, hv, e⟩)
    · exact .inr (.inr (.inl ⟨hv, e⟩))
    · exact .inr (.inr (.inr (.inl ⟨v, hv, e⟩)))
    · exact .inr (.inr (.inr (.inr ⟨o, hv, ho, e⟩)))

/-- R152, R161: only a failed transfer writes `ERR_CHUNK`. -/
theorem running_step_errChunk (hinv : BlockInv s) (hf : s.fsm ≠ .idle) (hu : s.nextTurn = .seq)
    (h : step s = .next t) :
    t.errChunk = s.errChunk ∨ (t.status = .transportError ∧ t.errChunk = s.kR) := by
  rcases running_step_cases hinv hf hu h with rfl | ⟨b, -, -, rfl⟩ | ⟨-, rfl⟩ | ⟨v, -, rfl⟩ | ⟨o, -, -, rfl⟩
  · exact .inl rfl
  · exact .inl (State.advance_errChunk _)
  · exact .inr ⟨rfl, rfl⟩
  · exact .inl (State.advance_errChunk _)
  · exact .inr ⟨rfl, rfl⟩

theorem State.rxIndex_in_slice (s : State) : s.rxIndex = 2 * s.kR ∨ s.rxIndex = 2 * s.kR + 1 := by
  unfold State.rxIndex
  split
  · exact .inr rfl
  · exact .inl rfl

/-- R117, R135: PBUF changes only while receiving, and only in slice `k_r`. -/
theorem running_step_pbufByte (hinv : BlockInv s) (hf : s.fsm ≠ .idle) (hu : s.nextTurn = .seq)
    (h : step s = .next t) {i : Nat} (hi : s.rxReady = false ∨ i ≠ 2 * s.kR ∧ i ≠ 2 * s.kR + 1) :
    t.pbufByte i = s.pbufByte i := by
  have hout (hv : s.rxReady = true) : i ≠ 2 * s.kR ∧ i ≠ 2 * s.kR + 1 := by simpa [hv] using hi
  rcases running_step_cases hinv hf hu h with rfl | ⟨b, -, -, rfl⟩ | ⟨-, rfl⟩ | ⟨v, hv, rfl⟩ | ⟨o, hv, -, rfl⟩
  · rfl
  · exact congrFun (State.advance_pbufByte _) i
  · rfl
  · obtain ⟨hlow, hhigh⟩ := hout hv
    have hindex : i ≠ s.rxIndex := by
      rcases s.rxIndex_in_slice with e | e <;> rw [e] <;> assumption
    rw [State.advance_pbufByte, State.pbufByte_storeByte, if_neg hindex]
    rfl
  · obtain ⟨hlow, hhigh⟩ := hout hv
    exact (State.pbufByte_drawSlice _ i).trans ((if_neg hhigh).trans (if_neg hlow))

/-- Settles O26: a transfer keeps what is latched; its cases bound what it does to PBUF and `ERR_CHUNK`. -/
theorem transferFrame : Obligations.TransferFrame := by
  intro s t hinv hb hu h
  have hf : s.fsm ≠ .idle := s.busy_iff.1 hb
  have hpbuf := fun i => running_step_pbufByte (i := i) hinv hf hu h
  have herr : t.status ≠ .transportError → t.errChunk = s.errChunk := fun hst =>
    (running_step_errChunk hinv hf hu h).resolve_right fun ⟨hfail, _⟩ => hst hfail
  obtain ⟨_, _, _, _, _, _, _, rfl⟩ := running_step_keepsLatched hf hu h
  exact ⟨rfl, rfl, rfl, rfl, rfl, rfl, rfl, rfl, rfl, rfl, rfl, hpbuf, herr⟩

/-! ## `ERR_CHUNK` in every step -/

/-- R151: in `IDLE` only the rejection of an odd length writes `ERR_CHUNK`. -/
theorem idle_step_errChunk (hf : s.fsm = .idle) (hu : s.nextTurn = .seq) (h : step s = .next t) :
    t.errChunk = s.errChunk ∨
    (t.status = .malformedPayload ∧ s.cmdPort.valid = true ∧ s.cmdPort.len % 2 = 1 ∧
      t.errChunk = s.cmdPort.len / 2) := by
  rw [step_seq hu] at h
  rcases seqTurn_cases (s := s.dropTurn) (absurd hf) h with ⟨rfl, -⟩ | ⟨-, hv, hodd, -, rfl⟩ | ⟨-, -, -, rfl⟩ |
    ⟨-, -, -, -, -, rfl⟩ | ⟨hbusy, -⟩
  · exact .inl rfl
  · exact .inr ⟨rfl, hv, hodd, rfl⟩
  · exact .inl rfl
  · exact .inl rfl
  · exact absurd hf hbusy

/-- R41: of the host's actions only a reset writes `ERR_CHUNK`. -/
theorem host_step_errChunk (hu : s.nextTurn = .host) (h : step s = .next t) :
    t.errChunk = s.errChunk ∨ (s.host.head? = some .rst ∧ t.errChunk = 0) := by
  rw [step_host hu] at h
  rcases hostTurn_cases h with rfl | ⟨a, rest, hh, hact⟩
  · exact .inl rfl
  · rcases hact with ⟨p, rfl⟩ | ⟨p, rfl⟩ | ⟨i, b, -, -, -, rfl⟩ | ⟨r, rfl⟩ | ⟨-, -, rfl⟩ | ⟨rfl, rfl⟩
    · exact .inl rfl
    · exact .inl rfl
    · exact .inl rfl
    · exact .inl rfl
    · exact .inl rfl
    · exact .inr ⟨congrArg List.head? hh, rfl⟩

/-- Settles O31: each agent's step names the one event that writes `ERR_CHUNK`, with the index it leaves there. -/
theorem errChunkChangesOnlyOnFailure : Obligations.ErrChunkChangesOnlyOnFailure := by
  intro s t hinv h hne
  cases hu : s.nextTurn with
  | seq =>
    by_cases hf : s.fsm = .idle
    · obtain ⟨hst, hv, hodd, herr⟩ := (idle_step_errChunk hf hu h).resolve_left hne
      exact .inl ⟨hst, rfl, s.busy_false_iff.2 hf, hv, hodd, herr⟩
    · obtain ⟨hst, herr⟩ := (running_step_errChunk hinv hf hu h).resolve_left hne
      exact .inr (.inl ⟨hst, rfl, s.busy_iff.2 hf, herr⟩)
  | host =>
    obtain ⟨hh, herr⟩ := (host_step_errChunk hu h).resolve_left hne
    exact .inr (.inr ⟨.inr ⟨hu, hh⟩, herr⟩)
  | seqReset =>
    rw [step_seqReset hu, resetDuring_eq] at h
    cases h
    exact .inr (.inr ⟨.inl hu, rfl⟩)

end Sys2Proof.Machine
end

section
/-! PROOFS. The statements of 20_memory.md: who changes PBUF (O30), and the stream a running command moves, whatever the
interleaving (O53). A served transfer moves the stream on by the one event its position names. -/

namespace Sys2Proof.Machine

variable {s t : State}

/-! ## Who changes PBUF -/

/-- What the host's step can do: a reset, a write to PBUF in `IDLE`, or nothing to the block's registers and PBUF. -/
theorem host_step_cases (hu : s.nextTurn = .host) (h : step s = .next t) :
    ResetNow s ∨
    (∃ i b rest, s.fsm = .idle ∧ s.host = .pbw i b :: rest ∧
      t = State.storeByte { s with turns := s.turns.tail, host := rest } i b) ∨
    (∃ c p as log, t = { s with turns := s.turns.tail, cmdPort := c, encPort := p, host := as, hostLog := log }) := by
  rw [step_host hu] at h
  rcases hostTurn_cases h with rfl | ⟨a, rest, hh, hact⟩
  · exact .inr (.inr ⟨_, _, _, _, rfl⟩)
  · rcases hact with ⟨p, rfl⟩ | ⟨p, rfl⟩ | ⟨i, b, rfl, hf, -, rfl⟩ | ⟨r, rfl⟩ | ⟨-, -, rfl⟩ | ⟨rfl, -⟩
    · exact .inr (.inr ⟨_, _, _, _, rfl⟩)
    · exact .inr (.inr ⟨_, _, _, _, rfl⟩)
    · exact .inr (.inl ⟨i, b, rest, hf, hh, rfl⟩)
    · exact .inr (.inr ⟨_, _, _, _, rfl⟩)
    · exact .inr (.inr ⟨_, _, _, _, rfl⟩)
    · exact .inl (.inr ⟨hu, congrArg List.head? hh⟩)

/-- R66, R111: an acceptance does not touch PBUF. -/
theorem idle_step_pbufByte (hf : s.fsm = .idle) (hu : s.nextTurn = .seq) (h : step s = .next t) :
    t.pbufByte = s.pbufByte := by
  rw [step_seq hu] at h
  rcases seqTurn_cases (s := s.dropTurn) (absurd hf) h with ⟨rfl, -⟩ | ⟨-, -, -, -, rfl⟩ | ⟨-, -, -, rfl⟩ |
    ⟨-, -, -, -, -, rfl⟩ | ⟨hbusy, -⟩
  · rfl
  · rfl
  · rfl
  · rfl
  · exact absurd hf hbusy

/-- R34: the host changes a byte of PBUF only by writing to it in `IDLE`, or by a reset. -/
theorem host_step_pbufByte (hu : s.nextTurn = .host) (h : step s = .next t) {i : Nat}
    (hne : t.pbufByte i ≠ s.pbufByte i) : (s.busy = false ∧ HostTouches s i) ∨ ResetNow s := by
  rcases host_step_cases hu h with hreset | ⟨j, b, rest, hf, hh, rfl⟩ | ⟨c, p, as, log, rfl⟩
  · exact .inr hreset
  · rw [State.pbufByte_storeByte] at hne
    obtain rfl : i = j := by
      by_contra hij
      exact hne (if_neg hij)
    exact .inl ⟨s.busy_false_iff.2 hf, hu, .inr ⟨b, congrArg List.head? hh⟩⟩
  · exact absurd rfl hne

/-- Settles O30: each agent's step that changes a byte of PBUF is its owner's at that moment. -/
theorem pbufChangesOnlyByItsOwner : Obligations.PbufChangesOnlyByItsOwner := by
  intro s t i hinv h hne
  cases hu : s.nextTurn with
  | seqReset => exact .inr (.inr (.inl hu))
  | host => exact (host_step_pbufByte hu h hne).elim .inl fun hreset => .inr (.inr hreset)
  | seq =>
    have hf : s.fsm ≠ .idle := fun hf => hne (congrFun (idle_step_pbufByte hf hu h) i)
    have hrx : s.rxReady = true := by
      by_contra hrx
      exact hne (running_step_pbufByte hinv hf hu h (.inl (Bool.eq_false_iff.2 hrx)))
    exact .inr (.inl ⟨rfl, hrx⟩)

/-! ## The stream of a command, chunk by chunk -/

section Stream

variable (op : Op) (hdr : Header) (pbuf : Nat → Byte)

theorem commandEvents_length (n : Nat) : (commandEvents op hdr pbuf n).length = 4 * (n / 2) := by
  simp [commandEvents, chunkEvents, List.length_flatMap, Nat.mul_comm]

/-- R63: the stream of a command is that of the chunks below `k`, then that of chunk `k`, then the rest. -/
theorem commandEvents_eq_append {n k : Nat} (hk : k < n / 2) :
    ∃ rest, commandEvents op hdr pbuf n = commandEvents op hdr pbuf (2 * k) ++ (chunkEvents op hdr pbuf k ++ rest) := by
  obtain ⟨m, hm⟩ := Nat.exists_eq_add_of_lt hk
  rw [commandEvents, commandEvents, hm, Nat.add_assoc, List.range_add, List.range_succ_eq_map,
    Nat.mul_div_cancel_left k Nat.two_pos]
  simp only [List.map_cons, List.flatMap_append, List.flatMap_cons, Nat.add_zero]
  exact ⟨_, rfl⟩

/-- The first `4 * k + j` events of a command: every chunk below `k`, and `j` events of chunk `k`. -/
theorem take_commandEvents {n k j : Nat} (hk : k < n / 2) (hj : j ≤ 4) :
    (commandEvents op hdr pbuf n).take (4 * k + j) =
      commandEvents op hdr pbuf (2 * k) ++ (chunkEvents op hdr pbuf k).take j := by
  obtain ⟨rest, e⟩ := commandEvents_eq_append op hdr pbuf hk
  have hlen : (commandEvents op hdr pbuf (2 * k)).length = 4 * k := by
    rw [commandEvents_length, Nat.mul_div_cancel_left k Nat.two_pos]
  rw [e, ← hlen, List.take_length_add_append, List.take_append_of_le_length hj]

/-- The stream of the chunks below `k` reads PBUF below `2 * k` only. -/
theorem commandEvents_congr {pbuf' : Nat → Byte} {k : Nat} (h : ∀ i < 2 * k, pbuf' i = pbuf i) :
    commandEvents op hdr pbuf' (2 * k) = commandEvents op hdr pbuf (2 * k) := by
  unfold commandEvents
  refine List.flatMap_congr fun c hc => ?_
  have hc' : c < k := by simpa using hc
  rw [chunkEvents, chunkEvents, h (2 * c) (by omega), h (2 * c + 1) (by omega)]

end Stream

/-! ## A served transfer -/

/-- The transfer in progress has been served and the state has not gone on yet: the stream is `pre`, then the command's own
up to its position and the event there. -/
def Served (pre : List StreamEvent) (s : State) : Prop := s.trace = pre ++ s.events.take (s.position + 1)

theorem fsmOffset_lt_four (f : Fsm) : fsmOffset f < 4 := by
  cases f <;> decide

/-- The stream up to the position, by chunks. -/
theorem State.take_events_position (s : State) (hk : s.kR < s.lenR / 2) :
    s.events.take s.position = commandEvents s.opR s.hdrR s.pbufByte (2 * s.kR) ++
      (chunkEvents s.opR s.hdrR s.pbufByte s.kR).take (fsmOffset s.fsm) :=
  take_commandEvents _ _ _ hk (fsmOffset_lt_four s.fsm).le

/-- The stream up to the position and the event there, by chunks. -/
theorem State.take_events_position_succ (s : State) (hk : s.kR < s.lenR / 2) :
    s.events.take (s.position + 1) = commandEvents s.opR s.hdrR s.pbufByte (2 * s.kR) ++
      (chunkEvents s.opR s.hdrR s.pbufByte s.kR).take (fsmOffset s.fsm + 1) :=
  take_commandEvents _ _ _ hk (fsmOffset_lt_four s.fsm)

/-- A byte sent is the event of its command's stream at the position (R112 to R115). -/
theorem chunkEvents_of_txData (h : BlockInv s) {b : Byte} (hb : s.txData = some b) :
    (chunkEvents s.opR s.hdrR s.pbufByte s.kR)[fsmOffset s.fsm]? = some (.tx b) := by
  have hf : s.fsm ≠ .idle := fun hf => by simp [State.txData, hf] at hb
  obtain ⟨-, -, -, -, -, hwrite, -⟩ := h.runningOk hf
  cases hs : s.fsm <;> simp only [State.txData, hs, Option.some.injEq, reduceCtorEq] at hb <;> subst hb
  case txh0 => rfl
  case txh1 => rfl
  case txd0 => rw [hwrite (.inl hs)]; rfl
  case txd1 => rw [hwrite (.inr hs)]; rfl

theorem Progress.served_deliver {pre : List StreamEvent} (hp : Progress pre s) (h : BlockInv s) (hf : s.fsm ≠ .idle)
    {b : Byte} (hb : s.txData = some b) : Served pre (s.deliver b) := by
  obtain ⟨-, -, hk, -⟩ := h.runningOk hf
  have hevent : s.events.take (s.position + 1) = s.events.take s.position ++ [.tx b] := by
    rw [s.take_events_position_succ hk, s.take_events_position hk, List.take_add_one, chunkEvents_of_txData h hb,
      List.append_assoc]
    rfl
  calc s.trace ++ [.tx b]
    _ = pre ++ s.events.take s.position ++ [.tx b] := by rw [hp]
    _ = pre ++ s.events.take (s.position + 1) := by rw [hevent, List.append_assoc]

/-- A byte received is the event of the chunk's stream at the offset once it is stored (R132, R133). -/
theorem take_chunkEvents_of_rxReady (h : BlockInv s) (hrx : s.rxReady = true) {pbuf : Nat → Byte}
    (hbelow : ∀ i < s.rxIndex, pbuf i = s.pbufByte i) :
    (chunkEvents s.opR s.hdrR pbuf s.kR).take (fsmOffset s.fsm + 1) =
      (chunkEvents s.opR s.hdrR s.pbufByte s.kR).take (fsmOffset s.fsm) ++ [.rx (.byte (pbuf s.rxIndex))] := by
  obtain ⟨-, -, -, -, -, -, hread⟩ := h.runningOk (State.fsm_ne_idle_of_rxReady hrx)
  cases hs : s.fsm <;> simp only [State.rxReady, hs, Bool.false_eq_true] at hrx
  case rxd0 =>
    have hindex : s.rxIndex = 2 * s.kR := by simp [State.rxIndex, hs, State.chunkBase]
    rw [hread (.inl hs), hindex]
    rfl
  case rxd1 =>
    have hindex : s.rxIndex = 2 * s.kR + 1 := by simp [State.rxIndex, hs, State.chunkBase]
    rw [hread (.inr hs), hindex, chunkEvents, hbelow (2 * s.kR) (by omega)]
    rfl

/-- R135: once a byte received is stored, the stream up to it is the command's own: the events before it read no byte that
the store changes. -/
theorem Progress.served_receive {pre : List StreamEvent} (hp : Progress pre s) (h : BlockInv s)
    (hrx : s.rxReady = true) (v : Byte) : Served pre ((s.consume (.byte v)).storeByte s.rxIndex v) := by
  obtain ⟨-, -, hk, -⟩ := h.runningOk (State.fsm_ne_idle_of_rxReady hrx)
  set u := (s.consume (.byte v)).storeByte s.rxIndex v
  have hpbuf (i : Nat) : u.pbufByte i = if i = s.rxIndex then v else s.pbufByte i := State.pbufByte_storeByte _ _ _ _
  have hbelow : ∀ i < s.rxIndex, u.pbufByte i = s.pbufByte i := fun i hi => (hpbuf i).trans (if_neg hi.ne)
  have hchunks : commandEvents s.opR s.hdrR u.pbufByte (2 * s.kR) = commandEvents s.opR s.hdrR s.pbufByte (2 * s.kR) :=
    commandEvents_congr _ _ _ fun i hi => hbelow i (by rcases s.rxIndex_in_slice with e | e <;> omega)
  have hevent : u.events.take (u.position + 1) = s.events.take s.position ++ [.rx (.byte v)] := by
    calc u.events.take (u.position + 1)
      _ = commandEvents s.opR s.hdrR u.pbufByte (2 * s.kR) ++
          (chunkEvents s.opR s.hdrR u.pbufByte s.kR).take (fsmOffset s.fsm + 1) := u.take_events_position_succ hk
      _ = s.events.take s.position ++ [.rx (.byte v)] := by
        rw [hchunks, take_chunkEvents_of_rxReady h hrx hbelow, hpbuf, if_pos rfl, s.take_events_position hk,
          List.append_assoc]
  calc s.trace ++ [.rx (.byte v)]
    _ = pre ++ s.events.take s.position ++ [.rx (.byte v)] := by rw [hp]
    _ = pre ++ u.events.take (u.position + 1) := by rw [hevent, List.append_assoc]

/-! ## Going on from a served transfer -/

@[simp] theorem State.advance_trace (s : State) : s.advance.trace = s.trace := by
  obtain ⟨f, k, st, e⟩ := s.advance_frame
  rw [e]

@[simp] theorem State.advance_events (s : State) : s.advance.events = s.events := by
  obtain ⟨f, k, st, e⟩ := s.advance_frame
  rw [e]
  rfl

/-- R116: the end of a chunk goes on to the next position, or ends the command in `OK` after its last event. -/
theorem State.endChunk_position (s : State) :
    (s.endChunk.fsm ≠ .idle ∧ s.endChunk.position = 4 * s.kR + 4 ∧ s.endChunk.status = s.status) ∨
    (s.endChunk.fsm = .idle ∧ 4 * s.kR + 4 = 4 * (s.lenR / 2) ∧ s.endChunk.status = .ok) := by
  rcases endChunk_cases s with ⟨hlast, e⟩ | ⟨-, e⟩ <;> rw [e]
  · exact .inr ⟨rfl, by omega, rfl⟩
  · exact .inl ⟨by simp, rfl, rfl⟩

/-- R112 to R116: a served transfer goes on to the next position, or ends the command in `OK` after its last event. -/
theorem State.advance_position (hf : s.fsm ≠ .idle) :
    (s.advance.fsm ≠ .idle ∧ s.advance.position = s.position + 1 ∧ s.advance.status = s.status) ∨
    (s.advance.fsm = .idle ∧ s.position + 1 = 4 * (s.lenR / 2) ∧ s.advance.status = .ok) := by
  cases hs : s.fsm <;> simp only [State.advance, hs]
  case idle => exact absurd hs hf
  case txh1 => cases s.opR <;> simp [State.position, fsmOffset, hs, afterHeader]
  case txd1 => simpa [State.position, fsmOffset, hs] using s.endChunk_position
  case rxd1 => simpa [State.position, fsmOffset, hs] using s.endChunk_position
  case txh0 | txd0 | rxd0 => simp [State.position, fsmOffset, hs]

theorem Served.progress_advance {pre : List StreamEvent} (h : Served pre s) (hf : s.fsm ≠ .idle)
    (hrun : s.advance.fsm ≠ .idle) : Progress pre s.advance := by
  obtain ⟨-, hpos, -⟩ := (State.advance_position hf).resolve_right fun ⟨hidle, _⟩ => hrun hidle
  rw [Progress, State.advance_trace, State.advance_events, hpos]
  exact h

theorem Served.whole_stream {pre : List StreamEvent} (h : Served pre s) (hf : s.fsm ≠ .idle)
    (hidle : s.advance.fsm = .idle) : s.trace = pre ++ s.events := by
  obtain ⟨-, hpos, -⟩ := (State.advance_position hf).resolve_left fun ⟨hrun, _⟩ => hrun hidle
  have hall : s.events.length ≤ s.position + 1 := hpos ▸ (commandEvents_length _ _ _ _).le
  rw [h, List.take_of_length_le hall]

/-! ## Every step of a running command -/

/-- What O53 asks of the step from `s`, in which a command runs, to `t`. -/
def FollowsStream (pre : List StreamEvent) (s t : State) : Prop :=
  (t.busy = true → Progress pre t) ∧
  (t.busy = false → t.status = .ok → t.trace = pre ++ commandEvents s.opR s.hdrR t.pbufByte s.lenR) ∧
  (t.status = .transportError → t.txBytes = s.txBytes ∧ t.errChunk = s.position / 4)

/-- A step that leaves the command running, with nothing moved. -/
theorem FollowsStream.of_progress {pre : List StreamEvent} (ht : Progress pre t) (hst : t.status = .none) :
    FollowsStream pre s t :=
  ⟨fun _ => ht, fun _ hok => by simp [hst] at hok, fun herr => by simp [hst] at herr⟩

/-- A step that leaves the block idle with no result: a reset. -/
theorem FollowsStream.of_reset {pre : List StreamEvent} (hf : t.fsm = .idle) (hst : t.status = .none) :
    FollowsStream pre s t :=
  ⟨fun hb => absurd hf (t.busy_iff.1 hb), fun _ hok => by simp [hst] at hok, fun herr => by simp [hst] at herr⟩

/-- A served transfer `u` that goes on. -/
theorem FollowsStream.of_served {pre : List StreamEvent} {u : State} (h : Served pre u) (hf : u.fsm ≠ .idle)
    (hst : u.status = .none) (hop : u.opR = s.opR) (hhdr : u.hdrR = s.hdrR) (hlen : u.lenR = s.lenR) :
    FollowsStream pre s u.advance := by
  refine ⟨fun hb => h.progress_advance hf ((State.busy_iff _).1 hb), fun hb _ => ?_, fun herr => ?_⟩
  · rw [State.advance_trace, State.advance_pbufByte, ← hop, ← hhdr, ← hlen]
    exact h.whole_stream hf ((State.busy_false_iff _).1 hb)
  · rcases State.advance_position hf with ⟨-, -, e⟩ | ⟨-, -, e⟩ <;> simp [e, hst] at herr

/-- R152: a failed transfer, be it with an answer consumed, sends nothing and reports the position's chunk. -/
theorem FollowsStream.of_failed {pre : List StreamEvent} (hf : t.fsm = .idle) (hst : t.status = .transportError)
    (htx : t.txBytes = s.txBytes) (herr : t.errChunk = s.kR) : FollowsStream pre s t := by
  have hchunk : s.position / 4 = s.kR := by
    have := fsmOffset_lt_four s.fsm
    simp only [State.position]
    omega
  exact ⟨fun hb => absurd hf (t.busy_iff.1 hb), fun _ hok => by simp [hst] at hok, fun _ => ⟨htx, herr.trans hchunk.symm⟩⟩

theorem State.txBytes_consume (s : State) (o : RxOutcome) : (s.consume o).txBytes = s.txBytes := by
  simp [State.txBytes, StreamEvent.sent]

theorem running_step_followsStream {pre : List StreamEvent} (hinv : BlockInv s) (hf : s.fsm ≠ .idle)
    (hp : Progress pre s) (hu : s.nextTurn = .seq) (h : step s = .next t) : FollowsStream pre s t := by
  obtain ⟨-, -, -, hst, -⟩ := hinv.runningOk hf
  have hinv' : BlockInv (s.used s.peer.tail) := hinv.of_same_block
  have hp' : Progress pre (s.used s.peer.tail) := hp
  rcases running_step_cases hinv hf hu h with rfl | ⟨b, hb, -, rfl⟩ | ⟨-, rfl⟩ | ⟨v, hrx, rfl⟩ | ⟨o, -, -, rfl⟩
  · exact .of_progress hp' hst
  · exact .of_served (hp'.served_deliver hinv' hf hb) hf hst rfl rfl rfl
  · exact .of_failed rfl rfl rfl rfl
  · exact .of_served (hp'.served_receive hinv' hrx v) hf hst rfl rfl rfl
  · exact .of_failed rfl rfl (State.txBytes_consume _ o) rfl

theorem reset_step_followsStream {pre : List StreamEvent} (hreset : ResetNow s) (h : step s = .next t) :
    FollowsStream pre s t := by
  obtain ⟨as, ps, e⟩ := hreset.step_eq
  cases e.symm.trans h
  exact .of_reset rfl rfl

/-- R187, R188: but for a reset, the host does not reach the running command. -/
theorem host_step_followsStream {pre : List StreamEvent} (hinv : BlockInv s) (hf : s.fsm ≠ .idle)
    (hp : Progress pre s) (hu : s.nextTurn = .host) (h : step s = .next t) : FollowsStream pre s t := by
  obtain ⟨-, -, -, hst, -⟩ := hinv.runningOk hf
  rcases host_step_cases hu h with hreset | ⟨_, _, _, hidle, -⟩ | ⟨c, p, as, log, rfl⟩
  · exact reset_step_followsStream hreset h
  · exact absurd hidle hf
  · exact .of_progress hp hst

/-- Settles O53: a served transfer moves the event at the position and goes on by one, a failed one sends nothing, and the
host's steps do not reach the command but for a reset, which leaves no result. -/
theorem runningCommandFollowsItsStream : Obligations.RunningCommandFollowsItsStream := by
  intro pre s t hinv hb hp h
  have hf : s.fsm ≠ .idle := s.busy_iff.1 hb
  cases hu : s.nextTurn with
  | seq => exact running_step_followsStream hinv hf hp hu h
  | host => exact host_step_followsStream hinv hf hp hu h
  | seqReset => exact reset_step_followsStream (.inl hu) h

end Sys2Proof.Machine
end

section
/-! PROOFS. The statements of 30_encoding.md. Packing a port's word and reading its fields are inverse to each other on both
ports (O49, O50), and the words of the spec's vectors decode as the spec says (O48). The bytes of a word are that word, so a
word placed where the next step takes it from is what that step runs (O52). With them, the header a started command latches
(O17) and the host's wait (O47). -/

namespace Sys2Proof.Machine

variable {s t : State}

/-! ## From an instruction to its word and back -/

/-- R76: the decoder finds the fields of an encoder word where they were packed. -/
theorem decodeEncw_packEncw (d : BitVec 1) (reg phy : AddrIn) :
    decodeEncw (packEncw d reg phy) = if d.getLsbD 0 then .encodeR phy reg else .encodeS phy reg := by
  have hdir : (packEncw d reg phy).getLsbD 16 = d.getLsbD 0 := by
    simp only [packEncw, BitVec.getLsbD_append]
    simp
  have hphy : byteField (packEncw d reg phy) 0 = phy := BitVec.extractLsb'_append_eq_right
  have hreg : byteField (packEncw d reg phy) 8 = reg := by
    rw [byteField, packEncw, BitVec.extractLsb'_append_eq_of_le (by decide)]
    exact BitVec.extractLsb'_append_eq_right
  rw [decodeEncw, hdir, hphy, hreg]

/-- Settles O49: an encoder word's fields are read where they were packed, and a command's word is the one its port's fields
pack. -/
theorem decodeOfEncodeIsIdentity : Obligations.DecodeOfEncodeIsIdentity := by
  intro i hi
  cases i with
  | encodeS phy reg => exact decodeEncw_packEncw 0 reg phy
  | encodeR phy reg => exact decodeEncw_packEncw 1 reg phy
  | write phy reg n => exact (offered_eq_decode (p := ⟨true, false, phy, reg, n⟩) (of_decide_eq_true hi)).symm
  | read phy reg n => exact (offered_eq_decode (p := ⟨true, true, phy, reg, n⟩) (of_decide_eq_true hi)).symm

/-! ## From a word to its instruction and back -/

/-- R83: every value of the fields has a word. -/
theorem wellFormed_decode (w : PortWord) : (decode w).wellFormed = true := by
  cases w with
  | encw w => simp only [decode, decodeEncw]; split <;> rfl
  | cmdw w =>
    have hlen : lenFits (cmdwLen w).toNat = true := decide_eq_true (cmdwLen w).isLt
    simp only [decode, decodeCmdw]
    split <;> exact hlen

/-- R80: a command word decodes to the operation its fields offer on the command port. -/
theorem decode_cmdw (w : BitVec 32) : decode (.cmdw w) = offered (cmdPortOfWord w) := rfl

theorem encode_offered (p : CmdPort) : encode (offered p) = .cmdw (wordOfCmdPort p) := by
  unfold offered wordOfCmdPort
  cases p.rd <;> rfl

theorem encode_decodeEncw (w : BitVec 17) :
    encode (decodeEncw w) = .encw (packEncw (w.extractLsb' 16 1) (byteField w 8) (byteField w 0)) := by
  rw [← ite_getLsbD_eq_extractLsb', decodeEncw]
  cases w.getLsbD 16 <;> rfl

/-- R76: an encoder word's fields adjoin each other and cover its 17 bits. -/
theorem packEncw_fields (w : BitVec 17) : packEncw (w.extractLsb' 16 1) (byteField w 8) (byteField w 0) = w := by
  unfold packEncw byteField
  rw [BitVec.extractLsb'_append_extractLsb'_eq_extractLsb' (start₁ := 8) (len₁ := 8) rfl,
    BitVec.extractLsb'_append_extractLsb'_eq_extractLsb' (start₁ := 0) (len₁ := 8) rfl]
  exact BitVec.extractLsb'_eq_self

/-- Settles O50: on each port the decoded operation's word packs the fields the decoder read, which cover the word. -/
theorem encodeOfDecodeIsIdentity : Obligations.EncodeOfDecodeIsIdentity := by
  intro w
  refine ⟨wellFormed_decode w, ?_⟩
  cases w with
  | encw w => exact (encode_decodeEncw w).trans (congrArg PortWord.encw (packEncw_fields w))
  | cmdw w => rw [decode_cmdw, encode_offered, wordOfCmdPort_cmdPortOfWord]

/-- Settles O48: seven evaluations of the decoder. -/
theorem specWordsDecode : Obligations.SpecWordsDecode := by
  unfold Obligations.SpecWordsDecode
  decide

/-! ## The word the next step runs -/

theorem bytesOfNat_length (n w : Nat) : (bytesOfNat n w).length = n := by
  induction n generalizing w with
  | zero => rfl
  | succ n ih => exact congrArg Nat.succ (ih (w / 256))

/-- The bytes of a number that fits them are that number (log 18). -/
theorem natOfBytes_bytesOfNat {n w : Nat} (h : w < 256 ^ n) : natOfBytes (bytesOfNat n w) = w := by
  induction n generalizing w with
  | zero => exact (Nat.lt_one_iff.1 h).symm
  | succ n ih =>
    have hrest : w / 256 < 256 ^ n := Nat.div_lt_of_lt_mul (by rwa [pow_succ'] at h)
    rw [bytesOfNat, natOfBytes, ih hrest, BitVec.toNat_ofNat]
    omega

/-- The bytes of a port's word decode as the word does. -/
theorem decodeBytes_bytesOfNat {p : Port} {w : Nat} (h : w < 256 ^ portBytes p) :
    decodeBytes p (bytesOfNat (portBytes p) w) = (portWordOfNat p w).map decode := by
  rw [decodeBytes, if_pos (bytesOfNat_length _ _), natOfBytes_bytesOfNat h]

theorem decodeTableWord_encw {w : Nat} (h : w < 2 ^ 17) :
    decodeTableWord 24 w = some (decode (.encw (BitVec.ofNat 17 w))) := by
  have hbytes := decodeBytes_bytesOfNat (p := .encoder) (h.trans (by decide))
  rw [portWordOfNat, if_pos h] at hbytes
  simp [decodeTableWord, portOfBits, hbytes, Except.map]

theorem decodeTableWord_cmdw {w : Nat} (h : w < 2 ^ 32) :
    decodeTableWord 32 w = some (decode (.cmdw (BitVec.ofNat 32 w))) := by
  have hbytes := decodeBytes_bytesOfNat (p := .command) (w := w) h
  simp [decodeTableWord, portOfBits, hbytes, portWordOfNat, Except.map]

theorem withFetchWord_encw {w : Nat} (h : w < 2 ^ 17) (s : State) :
    s.withFetchWord 24 w =
      { s with host := .encoder (BitVec.ofNat 17 w) :: s.host, turns := .host :: s.turns } := by
  rw [State.withFetchWord, placeWord, decodeTableWord_encw h]
  rfl

theorem withFetchWord_cmdw {w : Nat} (h : w < 2 ^ 32) (s : State) :
    s.withFetchWord 32 w =
      { s with cmdPort := cmdPortOfWord (BitVec.ofNat 32 w), turns := .seq :: s.turns } := by
  rw [State.withFetchWord, placeWord, decodeTableWord_cmdw h]
  rfl

/-- Settles O52: the word stands where its port's step takes its instruction from, and that step uses up the turn placed with
it. -/
theorem fetchWordRunsNext : Obligations.FetchWordRunsNext := by
  refine ⟨fun s w hw => ⟨_, decodeTableWord_encw hw, ?_⟩, fun s w hw hf => ⟨_, decodeTableWord_cmdw hw, ?_⟩⟩
  · rw [withFetchWord_encw hw]
    exact step_encoder rfl rfl
  · rw [withFetchWord_cmdw hw, decode_cmdw]
    exact step_offer rfl hf rfl

/-! ## The header of a started command -/

/-- R111: an acceptance in `IDLE` that leads to `TXH0` started its command. -/
theorem eq_startCommand_of_acceptCommand {op : Op} {phy reg : AddrIn} {n : Nat}
    (h : acceptCommand op phy reg n s = .next t) (hf : s.fsm = .idle) (ht : t.fsm = .txh0) :
    t = s.startCommand op phy reg n := by
  rcases acceptCommand_cases op phy reg n s with
    ⟨hbusy, -⟩ | ⟨-, -, e⟩ | ⟨-, -, -, e⟩ | ⟨-, -, e⟩ | ⟨-, -, -, -, e⟩
  · exact absurd hf hbusy
  · cases e.symm.trans h
  · cases e.symm.trans h; cases ht
  · cases e.symm.trans h; cases hf.symm.trans ht
  · cases e.symm.trans h; rfl

/-- Settles O17: what a started command latches depends on its kind in `op_r` alone, and its header is a `Send` header. -/
theorem readSendsTheHeaderOfWrite : Obligations.ReadSendsTheHeaderOfWrite := by
  intro phy reg n m s s' t t' hw hr hf hf' ht ht'
  obtain rfl : t = s.startCommand .write phy reg n := eq_startCommand_of_acceptCommand hw hf ht
  obtain rfl : t' = s'.startCommand .read phy reg m := eq_startCommand_of_acceptCommand hr hf' ht'
  exact ⟨rfl, encodeHeader_send_pattern phy reg, rfl, rfl⟩

/-! ## The host's wait -/

/-- Settles O47: a wait goes by `busy` alone. -/
theorem waitEndsWhenNotBusy : Obligations.WaitEndsWhenNotBusy := by
  intro s rest hu hh
  rw [step_hostAct hu hh]
  exact ⟨fun hb => if_neg (Bool.eq_false_iff.1 hb), fun hb => if_pos hb⟩

end Sys2Proof.Machine
end

section
/-! PROOFS. The statements of 40_header_encoder.md. A header is five appended fields, so two headers are equal exactly when
their directions and the low five bits of their inputs are (R97, R98, and the count of R99); its pattern under 0xF003 bounds
it (R99). The two encoder operations drive the port and record the header it shows, nothing more (R90, R91, R93). -/

namespace Sys2Proof.Machine

variable {s t : State} {w v : Nat}

/-! ## The header's fields -/

/-- R98: the operation code alone tells the directions apart. -/
theorem opCode_setWidth_two_inj {d d' : Direction} : (opCode d).setWidth 2 = (opCode d').setWidth 2 ↔ d = d' := by
  cases d <;> cases d' <;> decide

/-- R97, R98: a header holds the direction and the low five bits of each input, and nothing else. -/
theorem encodeHeader_eq_iff {d d' : Direction} {p r : BitVec w} {p' r' : BitVec v} :
    encodeHeader d p r = encodeHeader d' p' r' ↔
      d = d' ∧ p.setWidth 5 = p'.setWidth 5 ∧ r.setWidth 5 = r'.setWidth 5 := by
  constructor
  · intro h
    obtain ⟨-, hop, hp, hr, -⟩ := encodeHeader_fields d p r
    obtain ⟨-, hop', hp', hr', -⟩ := encodeHeader_fields d' p' r'
    rw [h] at hop hp hr
    exact ⟨opCode_setWidth_two_inj.1 (hop.symm.trans hop'), hp.symm.trans hp', hr.symm.trans hr'⟩
  · rintro ⟨rfl, hp, hr⟩
    rw [encodeHeader_eq_append, encodeHeader_eq_append, hp, hr]

/-- R77: the mask 0x1F keeps the low five bits, at an input width below five too. -/
theorem setWidth_five_and_mask (a : BitVec w) : (a &&& BitVec.ofNat w 0x1F).setWidth 5 = a.setWidth 5 := by
  apply BitVec.eq_of_getLsbD_eq
  intro i hi
  have hmask : Nat.testBit 0x1F i = true := by interval_cases i <;> rfl
  have hwidth : a.getLsbD i = true → i < w := BitVec.lt_of_getLsbD
  rw [BitVec.getLsbD_setWidth, BitVec.getLsbD_setWidth, BitVec.getLsbD_and, BitVec.getLsbD_ofNat, hmask]
  simpa [hi] using hwidth

theorem setWidth_five_eq_extractLsb' (a : AddrIn) : a.setWidth 5 = a.extractLsb' 0 5 :=
  BitVec.setWidth_eq_extractLsb' (by decide)

/-- An input below 32 is its low five bits. -/
theorem eq_of_setWidth_five_eq {a b : BitVec w} (ha : a.toNat < 32) (hb : b.toNat < 32)
    (h : a.setWidth 5 = b.setWidth 5) : a = b := by
  have hnat : a.toNat % 2 ^ 5 = b.toNat % 2 ^ 5 := by simpa using congrArg BitVec.toNat h
  exact BitVec.eq_of_toNat_eq (by omega)

/-- R94: the first byte begins with the header's two start bits. -/
theorem headerHigh_startBits (h : Header) : (headerHigh h).extractLsb' 6 2 = h.extractLsb' 14 2 := by
  apply BitVec.eq_of_getLsbD_eq
  intro i hi
  have hbyte : 6 + i < 8 := by omega
  have hbit : 8 + (6 + i) = 14 + i := by omega
  simp only [headerHigh, BitVec.getLsbD_extractLsb', hbyte, hbit, decide_true, Bool.true_and]

/-- R71, R74: the header's two lowest bits are the turnaround. -/
theorem encodeHeader_getLsbD_of_lt_two (d : Direction) (p r : BitVec w) {i : Nat} (hi : i < 2) :
    (encodeHeader d p r).getLsbD i = (turnaround d).getLsbD i := by
  obtain ⟨-, -, -, -, hta⟩ := encodeHeader_fields d p r
  simpa [hi] using congrArg (fun b => b.getLsbD i) hta

/-- R96: only the fields that depend on the direction differ. -/
theorem encodeHeader_send_xor_receive (p r : BitVec w) :
    encodeHeader .send p r ^^^ encodeHeader .receive p r = 0x3002#16 := by
  rw [encodeHeader_eq_append, encodeHeader_eq_append]
  apply BitVec.eq_of_getLsbD_eq
  intro i hi
  simp only [BitVec.getLsbD_xor, BitVec.getLsbD_append, BitVec.getLsbD_setWidth]
  interval_cases i <;> simp [opCode, turnaround]

theorem xor_and_distrib (x y m : BitVec w) : (x ^^^ y) &&& m = (x &&& m) ^^^ (y &&& m) := by
  apply BitVec.eq_of_getLsbD_eq
  intro i _
  simp only [BitVec.getLsbD_and, BitVec.getLsbD_xor, Bool.and_xor_distrib_right]

/-- R79: every `Receive` header has the `Receive` pattern, which differs from the `Send` pattern as the headers do. -/
theorem encodeHeader_receive_pattern (p r : BitVec w) :
    encodeHeader .receive p r &&& 0xF003#16 = 0x6000#16 := by
  have hxor : encodeHeader .receive p r = encodeHeader .send p r ^^^ 0x3002#16 := by
    rw [← encodeHeader_send_xor_receive p r, ← BitVec.xor_assoc, BitVec.xor_self, BitVec.zero_xor]
  calc encodeHeader .receive p r &&& 0xF003#16
    _ = (encodeHeader .send p r &&& 0xF003#16) ^^^ (0x3002#16 &&& 0xF003#16) := by
      rw [hxor, xor_and_distrib]
    _ = 0x6000#16 := by rw [encodeHeader_send_pattern]; rfl

/-- R99: a word lies between its bits under a mask and those bits with every other bit set. -/
theorem range_of_and_eq {h m b : BitVec w} (hb : h &&& m = b) : b ≤ h ∧ h ≤ b ||| ~~~m := by
  subst hb
  have hup : (h &&& m) ||| ~~~m = h ||| ~~~m := by
    apply BitVec.eq_of_getLsbD_eq
    intro i hi
    simp only [BitVec.getLsbD_or, BitVec.getLsbD_and, BitVec.getLsbD_not, hi, decide_true, Bool.true_and]
    cases m.getLsbD i <;> simp
  constructor
  · exact Nat.and_le_left
  · rw [hup]; exact Nat.left_le_or

/-- R90, R91: the constant bits of a header of a direction. -/
theorem encodeHeader_eq_or (d : Direction) (p r : BitVec w) :
    encodeHeader d p r =
      (0b01#16 <<< 14 ||| opCode d <<< 12 ||| turnaround d) ||| addrField p <<< 7 ||| addrField r <<< 2 := by
  unfold encodeHeader
  ac_rfl

/-! ## The laws of the header -/

/-- Settles O1: the first field of every header, which its first byte begins with. -/
theorem headerStartBitsAre01 : Obligations.HeaderStartBitsAre01 := by
  intro w d p r
  obtain ⟨hstart, -⟩ := encodeHeader_fields d p r
  exact ⟨hstart, (headerHigh_startBits _).trans hstart⟩

/-- Settles O2: the fields that depend on the direction give the difference, and the turnaround gives bit 0. -/
theorem headerDirectionsDifferBy3002 : Obligations.HeaderDirectionsDifferBy3002 := fun _ p r =>
  ⟨encodeHeader_send_xor_receive p r, encodeHeader_getLsbD_of_lt_two .send p r Nat.two_pos,
    encodeHeader_getLsbD_of_lt_two .receive p r Nat.two_pos⟩

/-- Settles O3: the mask keeps the five bits a header holds of an input. -/
theorem headerMasksAddressInputs : Obligations.HeaderMasksAddressInputs := fun _ _ p r =>
  encodeHeader_eq_iff.2 ⟨rfl, (setWidth_five_and_mask p).symm, (setWidth_five_and_mask r).symm⟩

/-- Settles O4: the appended fields of each direction. -/
theorem headerIsConcatenation : Obligations.HeaderIsConcatenation := by
  intro p r
  rw [← setWidth_five_eq_extractLsb', ← setWidth_five_eq_extractLsb']
  exact ⟨encodeHeader_eq_append .send p r, encodeHeader_eq_append .receive p r⟩

/-- Settles O5: equal headers hold equal fields, and five bits are all of an input below 32. -/
theorem headerInjectiveOnFiveBitInputs : Obligations.HeaderInjectiveOnFiveBitInputs := by
  constructor
  · intro d d' p p' r r' hp hp' hr hr' h
    obtain ⟨hd, hphy, hreg⟩ := encodeHeader_eq_iff.1 h
    exact ⟨hd, eq_of_setWidth_five_eq hp hp' hphy, eq_of_setWidth_five_eq hr hr' hreg⟩
  · intro d p r
    obtain ⟨-, hop, hp, hr, -⟩ := encodeHeader_fields d p r
    rw [hop]
    exact ⟨hp.trans (setWidth_five_eq_extractLsb' p), hr.trans (setWidth_five_eq_extractLsb' r),
      opCode_setWidth_two_inj (d' := .send), opCode_setWidth_two_inj (d' := .receive)⟩

/-- R99: all headers of a direction, one for each pair of five-bit inputs. -/
def headersOf (d : Direction) : Finset Header :=
  Finset.univ.image fun a : BitVec 5 × BitVec 5 => encodeHeader d a.1 a.2

theorem card_headersOf (d : Direction) : (headersOf d).card = 1024 := by
  have hinj : Function.Injective fun a : BitVec 5 × BitVec 5 => encodeHeader d a.1 a.2 := by
    intro a b h
    obtain ⟨-, hp, hr⟩ := encodeHeader_eq_iff.1 h
    simp only [BitVec.setWidth_eq] at hp hr
    exact Prod.ext hp hr
  have hfive : Fintype.card (BitVec 5) = 32 := Fintype.card_congr BitVec.equivFin.toEquiv
  rw [headersOf, Finset.card_image_of_injective _ hinj, Finset.card_univ, Fintype.card_prod, hfive]

/-- The headers of eight-bit inputs are those of their low five bits. -/
theorem mem_headersOf {d : Direction} {h : Header} :
    h ∈ headersOf d ↔ ∃ p r : AddrIn, encodeHeader d p r = h := by
  simp only [headersOf, Finset.mem_image, Finset.mem_univ, true_and, Prod.exists]
  constructor
  · rintro ⟨p, r, rfl⟩
    exact ⟨p.setWidth 8, r.setWidth 8, encodeHeader_eq_iff.2 ⟨rfl, by simp, by simp⟩⟩
  · rintro ⟨p, r, rfl⟩
    exact ⟨p.setWidth 5, r.setWidth 5, encodeHeader_eq_iff.2 ⟨rfl, by simp, by simp⟩⟩

/-- Settles O6: the pattern of a direction bounds its headers, and `headersOf` lists them. -/
theorem headerRangeAndCount : Obligations.HeaderRangeAndCount := by
  refine ⟨fun p r => ⟨?_, ?_⟩, fun d => ⟨(headersOf d).toList, Finset.nodup_toList _, ?_, fun h => ?_⟩⟩
  · have hpat := encodeHeader_send_pattern p r
    exact and_assoc.1 ⟨range_of_and_eq hpat, hpat⟩
  · have hpat := encodeHeader_receive_pattern p r
    exact and_assoc.1 ⟨range_of_and_eq hpat, hpat⟩
  · rw [Finset.length_toList, card_headersOf]
  · rw [Finset.mem_toList, mem_headersOf]

theorem headerHigh_toNat (h : Header) : (headerHigh h).toNat = h.toNat / 256 := by
  have hlt : h.toNat < 65536 := h.isLt
  rw [headerHigh, BitVec.extractLsb'_toNat, Nat.shiftRight_eq_div_pow]
  omega

theorem headerLow_toNat (h : Header) : (headerLow h).toNat = h.toNat % 256 := by
  rw [headerLow, BitVec.extractLsb'_toNat, Nat.shiftRight_zero]

/-- Settles O7: the port's byte outputs are the two bytes of `enc_hdr` by definition (R36). -/
theorem headerBytesAreQuotientAndRemainder : Obligations.HeaderBytesAreQuotientAndRemainder :=
  ⟨fun h => ⟨headerHigh_toNat h, headerLow_toNat h, headerHigh_append_headerLow h⟩, fun _ => ⟨rfl, rfl⟩⟩

/-! ## The two encoder operations -/

/-- R36: what the host's use of the encoder port leaves: the port's inputs, and the header they give in the record. -/
theorem useEncoder_eq (p : EncPort) (s : State) :
    useEncoder p s =
      { s with encPort := p, hostLog := s.hostLog ++ [.encHdr (encodeHeader p.dir p.phy p.reg)] } := rfl

theorem exec_encodeS (phy reg : AddrIn) (s : State) :
    exec (.encodeS phy reg) s = .next (useEncoder { dir := .send, phy := phy, reg := reg } s) := rfl

theorem exec_encodeR (phy reg : AddrIn) (s : State) :
    exec (.encodeR phy reg) s = .next (useEncoder { dir := .receive, phy := phy, reg := reg } s) := rfl

/-- R76, R80: bit 16 of an encoder word selects the direction. -/
theorem decode_encw_send {w : BitVec 17} (h : w.getLsbD 16 = false) :
    decode (.encw w) = .encodeS (w.extractLsb' 0 8) (w.extractLsb' 8 8) :=
  if_neg (Bool.eq_false_iff.1 h)

theorem decode_encw_receive {w : BitVec 17} (h : w.getLsbD 16 = true) :
    decode (.encw w) = .encodeR (w.extractLsb' 0 8) (w.extractLsb' 8 8) :=
  if_pos h

/-- R81: a running command never holds a `Receive` header. -/
theorem BlockInv.hdrR_ne_receive (h : BlockInv s) (hb : s.busy = true) (p r : BitVec w) :
    s.hdrR ≠ encodeHeader .receive p r := by
  intro hreceive
  obtain ⟨-, -, -, -, hsend, -, -⟩ := h.runningOk (s.busy_iff.1 hb)
  rw [hreceive, encodeHeader_receive_pattern] at hsend
  exact absurd hsend (by decide)

/-- Settles O8: `ENCODE.S` is a use of the encoder port, whose output a reset does not change (R43). -/
theorem encodeSReadsSendHeader : Obligations.EncodeSReadsSendHeader := by
  refine ⟨fun phy reg s => ⟨encodeHeader .send phy reg, _, encodeHeader_eq_or .send phy reg, exec_encodeS phy reg s,
      fun t ht => ?_⟩, fun _ => decode_encw_send, by decide, by decide, headerMasksAddressInputs 8 .send, by decide,
    by decide, by decide⟩
  obtain rfl := Host.Outcome.next.inj ht
  exact ⟨rfl, rfl, rfl, rfl, encodeHeader_getLsbD_of_lt_two .send phy reg (by decide),
    encodeHeader_getLsbD_of_lt_two .send phy reg (by decide)⟩

/-- Settles O9: `ENCODE.R` likewise; the invariant gives a running command a `Send` header. -/
theorem encodeRReadsReceiveHeader : Obligations.EncodeRReadsReceiveHeader := by
  refine ⟨fun phy reg s => ⟨encodeHeader .receive phy reg, _, encodeHeader_eq_or .receive phy reg,
      exec_encodeR phy reg s, fun t ht => ?_⟩, fun _ => decode_encw_receive, by decide, by decide,
    headerMasksAddressInputs 8 .receive, by decide, by decide, by decide, fun _ => BlockInv.hdrR_ne_receive⟩
  obtain rfl := Host.Outcome.next.inj ht
  obtain ⟨-, -, -, -, hta⟩ := encodeHeader_fields .receive phy reg
  exact ⟨rfl, rfl, rfl, hta⟩

/-- Settles O10: both operations are uses of the encoder port, which write the port's inputs and the record. -/
theorem encoderFrame : Obligations.EncoderFrame := by
  intro phy reg s t h
  obtain ⟨p, rfl⟩ : ∃ p, t = useEncoder p s :=
    h.elim (fun e => ⟨_, (Host.Outcome.next.inj e).symm⟩) (fun e => ⟨_, (Host.Outcome.next.inj e).symm⟩)
  rw [useEncoder_eq]
  exact ⟨rfl, rfl, rfl, rfl, rfl, rfl, rfl, rfl, fun _ => rfl, rfl, rfl, rfl, rfl, rfl, rfl, rfl, rfl⟩

end Sys2Proof.Machine
end

section
/-! PROOFS. The statements of 41_write_sequence.md. Acceptance in `IDLE` (O11, O12, O16) and the stream a started command
begins (O54); the four transmit states, each a `StreamPut` of `tx_data` (O18 to O21); a running WRITE leaves PBUF alone
(O28). The two traces (O55, O56) are one induction over the bytes accepted so far, and the one step that ends the command. -/

namespace Sys2Proof.Machine

variable {s s₀ t : State} {p : PeerSignals} {rest : List PeerSignals}

/-! ## Acceptance -/

/-- R111: what an acceptance in `IDLE` of a length PBUF can hold leaves, in the order of the rule's branches. -/
def State.accept (s : State) (op : Op) (phy reg : AddrIn) (n : Nat) : State :=
  if n % 2 = 1 then { s with status := .malformedPayload, errChunk := n / 2 }
  else if n = 0 then s.completeEmpty
  else s.startCommand op phy reg n

/-- R161: a raise in `IDLE` does not move the sequencer. -/
theorem State.raise_of_idle (hf : s.fsm = .idle) (kind : Status) (c : Nat) :
    s.raise kind c = { s with status := kind, errChunk := c } := by
  rw [State.raise, ← hf]

theorem acceptCommand_of_gt (hf : s.fsm = .idle) {n : Nat} (hn : s.params.maxLen < n) (op : Op) (phy reg : AddrIn) :
    acceptCommand op phy reg n s = .refused .lenAboveMax := by
  rw [acceptCommand, if_neg (by simp [hf]), if_pos hn]

theorem acceptCommand_of_le (hf : s.fsm = .idle) {n : Nat} (hn : n ≤ s.params.maxLen) (op : Op) (phy reg : AddrIn) :
    acceptCommand op phy reg n s = .next (s.accept op phy reg n) := by
  rw [acceptCommand, if_neg (by simp [hf]), if_neg (Nat.not_lt.2 hn), State.accept, State.raiseMalformed,
    State.raise_of_idle hf]
  split_ifs <;> rfl

/-- Settles O12: `WRITE` is an acceptance. -/
theorem writeAcceptanceCompletes : Obligations.WriteAcceptanceCompletes := fun phy reg _ _ hf hn =>
  acceptCommand_of_le hf hn .write phy reg

/-- A sequencer in `IDLE` accepts the command on its port, whose offer ends (R33, log 4). -/
theorem step_acceptCommand (hu : s.nextTurn = .seq) (hf : s.fsm = .idle) (hv : s.cmdPort.valid = true) :
    step s = acceptCommand (if s.cmdPort.rd then .read else .write) s.cmdPort.phy s.cmdPort.reg s.cmdPort.len
      s.dropTurn.takeOffer :=
  (step_seq hu).trans (seqTurn_accept (s := s.dropTurn) hf hv)

/-- An acceptance reads neither the offer it ends nor the turns. -/
theorem State.accept_dropTurn_takeOffer (s : State) (op : Op) (phy reg : AddrIn) (n : Nat) :
    s.dropTurn.takeOffer.accept op phy reg n =
      { s.accept op phy reg n with turns := s.turns.tail, cmdPort := { s.cmdPort with valid := false } } := by
  unfold State.accept
  split_ifs <;> rfl

/-- Settles O11: the step is the acceptance of the port's fields, whose branches are those of `State.accept`. -/
theorem acceptanceFollowsItsBranches : Obligations.AcceptanceFollowsItsBranches := by
  intro s hu hv hf
  rw [step_acceptCommand hu hf hv]
  constructor
  · intro hn
    exact acceptCommand_of_gt (s := s.dropTurn.takeOffer) hf hn _ _ _
  · intro hn
    rw [acceptCommand_of_le (s := s.dropTurn.takeOffer) hf hn, State.accept_dropTurn_takeOffer]
    exact ⟨State.accept s _ _ _ _, _, _, rfl, rfl⟩

/-- R111, R151: an acceptance changes registers of the sequencer only, and each of them only in its branches. -/
theorem acceptCommand_frame {op : Op} {phy reg : AddrIn} {n : Nat} (h : acceptCommand op phy reg n s = .next t) :
    ∃ f o hdr l k st c,
      t = { s with fsm := f, opR := o, hdrR := hdr, lenR := l, kR := k, status := st, errChunk := c } ∧
      (n % 2 = 0 ∨ s.busy = true → c = s.errChunk) ∧
      (n % 2 = 1 ∨ n = 0 ∨ s.busy = true → f = s.fsm ∧ o = s.opR ∧ hdr = s.hdrR ∧ l = s.lenR ∧ k = s.kR) ∧
      (s.busy = true → st = s.status) := by
  rcases acceptCommand_cases op phy reg n s with
    ⟨-, e⟩ | ⟨-, -, e⟩ | ⟨hf, -, hodd, e⟩ | ⟨hf, -, e⟩ | ⟨hf, -, heven, hpos, e⟩ <;> cases e.symm.trans h
  · exact ⟨_, _, _, _, _, _, _, rfl, fun _ => rfl, fun _ => ⟨rfl, rfl, rfl, rfl, rfl⟩, fun _ => rfl⟩
  · exact ⟨_, _, _, _, _, _, _, rfl, by simp [hodd, hf], fun _ => ⟨hf.symm, rfl, rfl, rfl, rfl⟩, by simp [hf]⟩
  · exact ⟨_, _, _, _, _, _, _, rfl, fun _ => rfl, fun _ => ⟨rfl, rfl, rfl, rfl, rfl⟩, by simp [hf]⟩
  · exact ⟨_, _, _, _, _, _, _, rfl, fun _ => rfl, by simp [heven, hpos.ne', hf], by simp [hf]⟩

/-- Settles O16: both commands are acceptances, whose frame is one. -/
theorem acceptanceFrame : Obligations.AcceptanceFrame := by
  intro phy reg n s t h
  obtain ⟨_, _, _, _, _, _, _, rfl, herr, hregs, hst⟩ := h.elim acceptCommand_frame acceptCommand_frame
  exact ⟨rfl, fun _ => rfl, rfl, rfl, rfl, rfl, rfl, rfl, rfl, rfl, rfl, herr, hregs, hst⟩

/-! ## The stream of a started command -/

@[simp] theorem State.startCommand_position (s : State) (op : Op) (phy reg : AddrIn) (n : Nat) :
    (s.startCommand op phy reg n).position = 0 := rfl

theorem startCommand_progress (s : State) (op : Op) (phy reg : AddrIn) (n : Nat) :
    Progress s.trace (s.startCommand op phy reg n) := by
  simp [Progress]

/-- R111: the block becomes busy only by the start of a command, which moves nothing yet. -/
theorem starts_command_of_busy (hf : s.fsm = .idle) (h : step s = .next t) (ht : t.fsm ≠ .idle) :
    ∃ (u : State) (op : Op) (phy reg : AddrIn) (n : Nat), u.trace = s.trace ∧ t = u.startCommand op phy reg n := by
  have hreset (hr : ResetNow s) : t.fsm = .idle := by
    obtain ⟨_, _, e⟩ := hr.step_eq
    cases e.symm.trans h
    rfl
  cases hu : s.nextTurn with
  | seqReset => exact absurd (hreset (.inl hu)) ht
  | host =>
    rcases host_step_cases hu h with hr | ⟨_, _, _, -, -, rfl⟩ | ⟨_, _, _, _, rfl⟩
    · exact absurd (hreset hr) ht
    · exact absurd hf ht
    · exact absurd hf ht
  | seq =>
    rw [step_seq hu] at h
    rcases seqTurn_cases (s := s.dropTurn) (absurd hf) h with ⟨rfl, -⟩ | ⟨-, -, -, -, rfl⟩ | ⟨-, -, -, rfl⟩ |
      ⟨-, -, -, -, -, rfl⟩ | ⟨hbusy, -⟩
    · exact absurd hf ht
    · exact absurd rfl ht
    · exact absurd hf ht
    · exact ⟨s.dropTurn.takeOffer, _, _, _, _, rfl, rfl⟩
    · exact absurd hf hbusy

/-- Settles O54: a step that makes the block busy starts a command, at position 0. -/
theorem acceptanceStartsItsStream : Obligations.AcceptanceStartsItsStream := by
  intro s t _ hb h ht
  obtain ⟨u, op, phy, reg, n, htrace, rfl⟩ := starts_command_of_busy (s.busy_false_iff.1 hb) h (t.busy_iff.1 ht)
  exact ⟨htrace ▸ startCommand_progress u op phy reg n, rfl⟩

/-! ## The transmit states -/

theorem streamPut_of_ok (ha : txAnswer p = .ok) (b : Byte) (f : State → State) (s : State) :
    streamPut b p f s = .next (f (s.deliver b)) := by
  rw [streamPut, ha]

theorem streamPut_of_err (ha : txAnswer p = .err) (b : Byte) (f : State → State) (s : State) :
    streamPut b p f s = .next (s.raise .transportError s.kR) := by
  rw [streamPut, ha]
  rfl

/-- R13: the current chunk's bytes lie in PBUF where the state reaches them, which the header's states do not. -/
def ReachesPbuf (s : State) : Prop := s.fsm = .txd0 ∨ s.fsm = .txd1 → s.chunkBase + 1 < s.params.maxLen

theorem BlockInv.reachesPbuf (h : BlockInv s) : ReachesPbuf s := fun hf =>
  h.chunk_in_pbuf (by rcases hf with hf | hf <;> simp [hf])

theorem streamPut_congr {f g : State → State} {b : Byte} (h : f (s.deliver b) = g (s.deliver b)) :
    streamPut b p f s = streamPut b p g s := by
  unfold streamPut
  rw [h]

theorem State.advance_txh0 (hf : s.fsm = .txh0) : s.advance = s.goto .txh1 := by
  rw [State.advance, hf]

theorem State.advance_txh1 (hf : s.fsm = .txh1) : s.advance = s.goto (afterHeader s.opR) := by
  rw [State.advance, hf]

theorem State.advance_txd0 (hf : s.fsm = .txd0) : s.advance = s.goto .txd1 := by
  rw [State.advance, hf]

theorem State.advance_txd1 (hf : s.fsm = .txd1) : s.advance = s.endChunk := by
  rw [State.advance, hf]

/-- R112 to R115: in every transmit state the transfer is a `StreamPut` of `tx_data`, which goes on as `advance` does. -/
theorem transfer_of_txData (hk : ReachesPbuf s) {b : Byte} (hb : s.txData = some b) (p : PeerSignals) :
    transfer p s = streamPut b p State.advance s := by
  cases hf : s.fsm <;> simp only [State.txData, hf, Option.some.injEq, reduceCtorEq] at hb <;> subst hb
  case txh0 =>
    simp only [transfer, hf]
    exact streamPut_congr (State.advance_txh0 (s := s.deliver _) hf).symm
  case txh1 =>
    simp only [transfer, hf]
    exact streamPut_congr (State.advance_txh1 (s := s.deliver _) hf).symm
  case txd0 =>
    simp only [transfer, hf, stepTxd0, inPbuf_of_lt (hk (.inl hf))]
    exact streamPut_congr (State.advance_txd0 (s := s.deliver _) hf).symm
  case txd1 =>
    simp only [transfer, hf, stepTxd1, inPbuf_of_lt (hk (.inr hf))]
    exact streamPut_congr (State.advance_txd1 (s := s.deliver _) hf).symm

theorem State.fsm_ne_idle_of_txData {b : Byte} (h : s.txData = some b) : s.fsm ≠ .idle := by
  intro hf
  simp [State.txData, hf] at h

theorem step_streamPut (hk : ReachesPbuf s) {b : Byte} (hu : s.nextTurn = .seq) (hb : s.txData = some b)
    (hp : s.peer = p :: rest) : step s = streamPut b p State.advance (s.used rest) := by
  rw [step_seq hu, seqTurn_transfer (s := s.dropTurn) (State.fsm_ne_idle_of_txData hb) hp]
  exact transfer_of_txData (s := s.used rest) hk hb p

/-- R37: the byte offered is delivered when the peer accepts it. -/
theorem step_of_accepted (hk : ReachesPbuf s) {b : Byte} (hu : s.nextTurn = .seq) (hb : s.txData = some b)
    (hp : s.peer = p :: rest) (ha : txAnswer p = .ok) : step s = .next ((s.used rest).deliver b).advance := by
  rw [step_streamPut hk hu hb hp, streamPut_of_ok ha]

/-- R37, R152: a byte the peer fails is not delivered, and the command fails with its chunk. -/
theorem step_of_failed (hk : ReachesPbuf s) {b : Byte} (hu : s.nextTurn = .seq) (hb : s.txData = some b)
    (hp : s.peer = p :: rest) (ha : txAnswer p = .err) :
    step s = .next ((s.used rest).raise .transportError s.kR) := by
  rw [step_streamPut hk hu hb hp, streamPut_of_err ha]

theorem State.endChunk_of_last (h : s.kR + 1 = s.lenR / 2) : s.endChunk = s.finish := if_pos h

theorem State.endChunk_of_not_last (h : s.kR + 1 ≠ s.lenR / 2) : s.endChunk = s.nextChunk := if_neg h

theorem State.txData_txh0 (hf : s.fsm = .txh0) : s.txData = some (headerHigh s.hdrR) := by
  rw [State.txData, hf]

theorem State.txData_txh1 (hf : s.fsm = .txh1) : s.txData = some (headerLow s.hdrR) := by
  rw [State.txData, hf]

theorem State.txData_txd0 (hf : s.fsm = .txd0) : s.txData = some (s.pbufByte (2 * s.kR)) := by
  rw [State.txData, hf]
  rfl

theorem State.txData_txd1 (hf : s.fsm = .txd1) : s.txData = some (s.pbufByte (2 * s.kR + 1)) := by
  rw [State.txData, hf]
  rfl

theorem afterHeader_eq_ite (op : Op) : afterHeader op = if op = .write then .txd0 else .rxd0 := by
  cases op <;> rfl

/-- Settles O18: `tx_data` is the header's high byte, and no byte of PBUF is reached. -/
theorem txh0OffersHeaderHighByte : Obligations.Txh0OffersHeaderHighByte := by
  intro s p rest hu hf hp
  have hk : ReachesPbuf s := by simp [ReachesPbuf, hf]
  have hb := State.txData_txh0 hf
  refine ⟨fun ha => ⟨s.turns.tail, rest, ?_⟩, fun ha => ⟨_, _, step_of_failed hk hu hb hp ha⟩⟩
  rw [step_of_accepted hk hu hb hp ha, State.advance_txh0 (s := (s.used rest).deliver _) hf]
  rfl

/-- Settles O19: likewise for the low byte, after which `op_r` chooses the payload's state. -/
theorem txh1OffersHeaderLowByte : Obligations.Txh1OffersHeaderLowByte := by
  intro s p rest hu hf hp
  have hk : ReachesPbuf s := by simp [ReachesPbuf, hf]
  have hb := State.txData_txh1 hf
  refine ⟨fun ha => ⟨s.turns.tail, rest, ?_⟩, fun ha => ⟨_, _, step_of_failed hk hu hb hp ha⟩⟩
  rw [step_of_accepted hk hu hb hp ha, State.advance_txh1 (s := (s.used rest).deliver _) hf, afterHeader_eq_ite]
  rfl

/-- Settles O20: the invariant keeps the chunk within PBUF, so `tx_data` is its first byte. -/
theorem txd0OffersFirstPayloadByte : Obligations.Txd0OffersFirstPayloadByte := by
  intro s p rest hinv hu hf hp
  have hb := State.txData_txd0 hf
  refine ⟨fun ha => ⟨s.turns.tail, rest, ?_⟩, fun ha => ⟨_, _, step_of_failed hinv.reachesPbuf hu hb hp ha⟩⟩
  rw [step_of_accepted hinv.reachesPbuf hu hb hp ha, State.advance_txd0 (s := (s.used rest).deliver _) hf]
  rfl

/-- Settles O21: likewise for the chunk's second byte, with which the chunk ends in one of `EndChunk`'s ways (R116). -/
theorem txd1OffersSecondPayloadByte : Obligations.Txd1OffersSecondPayloadByte := by
  intro s p rest hinv hu hf hp
  have hb := State.txData_txd1 hf
  have hok (ha : txAnswer p = .ok) :
      step s = .next ((s.used rest).deliver (s.pbufByte (2 * s.kR + 1))).endChunk := by
    rw [step_of_accepted hinv.reachesPbuf hu hb hp ha, State.advance_txd1 (s := (s.used rest).deliver _) hf]
  refine ⟨fun ha hlast => ⟨s.turns.tail, rest, ?_⟩, fun ha hmore => ⟨s.turns.tail, rest, ?_⟩,
    fun ha => ⟨_, _, step_of_failed hinv.reachesPbuf hu hb hp ha⟩⟩
  · rw [hok ha, State.endChunk_of_last (s := (s.used rest).deliver _) hlast]
    rfl
  · rw [hok ha, State.endChunk_of_not_last (s := (s.used rest).deliver _) hmore]
    rfl

/-! ## A running WRITE -/

/-- R113: only a READ comes to a receive state. -/
theorem BlockInv.opR_of_rxReady (h : BlockInv s) (hrx : s.rxReady = true) : s.opR = .read := by
  obtain ⟨-, -, -, -, -, -, hread⟩ := h.runningOk (State.fsm_ne_idle_of_rxReady hrx)
  cases hf : s.fsm <;> simp only [State.rxReady, hf, Bool.false_eq_true] at hrx
  case rxd0 => exact hread (.inl hf)
  case rxd1 => exact hread (.inr hf)

/-- Settles O28: of the owners of PBUF (R66), the host has none of it while busy, and a WRITE is in no receive state. -/
theorem writeKeepsPbuf : Obligations.WriteKeepsPbuf := by
  intro s t hinv hb hop hreset h i
  by_contra hne
  rcases pbufChangesOnlyByItsOwner s t i hinv h hne with ⟨hidle, -⟩ | ⟨-, hrx⟩ | hr
  · cases hb.symm.trans hidle
  · cases hop.symm.trans (hinv.opR_of_rxReady hrx)
  · exact hreset hr

/-- R112 to R115: a running WRITE always offers a byte. -/
theorem BlockInv.exists_txData (h : BlockInv s) (hf : s.fsm ≠ .idle) (hop : s.opR = .write) :
    ∃ b, s.txData = some b := by
  cases hs : s.fsm with
  | idle => exact absurd hs hf
  | txh0 => exact ⟨_, State.txData_txh0 hs⟩
  | txh1 => exact ⟨_, State.txData_txh1 hs⟩
  | txd0 => exact ⟨_, State.txData_txd0 hs⟩
  | txd1 => exact ⟨_, State.txData_txd1 hs⟩
  | rxd0 => cases hop.symm.trans (h.opR_of_rxReady (by rw [State.rxReady, hs]))
  | rxd1 => cases hop.symm.trans (h.opR_of_rxReady (by rw [State.rxReady, hs]))

theorem State.position_div_four (s : State) : s.position / 4 = s.kR := by
  have := fsmOffset_lt_four s.fsm
  simp only [State.position]
  omega

theorem BlockInv.position_lt (h : BlockInv s) (hf : s.fsm ≠ .idle) : s.position < 4 * (s.lenR / 2) := by
  obtain ⟨-, -, hk, -⟩ := h.runningOk hf
  have := fsmOffset_lt_four s.fsm
  simp only [State.position]
  omega

/-! ## The run of a WRITE whose host makes no further step -/

/-- From the command just started in `s₀` to `t` the peer answered `j` transfers, the command's first `j` events were moved,
no turn is listed, and nothing else changed but where the sequencer is. -/
def Moved (s₀ : State) (j : Nat) (t : State) : Prop :=
  ∃ f k st, t = { s₀ with
    fsm := f, kR := k, status := st, turns := [], peer := s₀.peer.drop j
    trace := s₀.trace ++ s₀.events.take j }

/-- `t` is in transfer `j` of the WRITE just started in `s₀`. -/
structure WriteAt (s₀ : State) (j : Nat) (t : State) : Prop where
  moved : Moved s₀ j t
  inv : BlockInv t
  running : t.fsm ≠ .idle
  position : t.position = j
  write : s₀.opR = .write

theorem WriteAt.progress {j : Nat} (h : WriteAt s₀ j t) : Progress s₀.trace t := by
  rw [Progress, h.position]
  obtain ⟨_, _, _, rfl⟩ := h.moved
  rfl

theorem WriteAt.nextTurn {j : Nat} (h : WriteAt s₀ j t) : t.nextTurn = .seq := by
  obtain ⟨_, _, _, rfl⟩ := h.moved
  rfl

theorem WriteAt.peer_eq_cons {j : Nat} (h : WriteAt s₀ j t) (hp : s₀.peer[j]? = some p) :
    t.peer = p :: s₀.peer.drop (j + 1) := by
  obtain ⟨_, _, _, rfl⟩ := h.moved
  obtain ⟨hlt, rfl⟩ := List.getElem?_eq_some_iff.1 hp
  exact List.drop_eq_getElem_cons hlt

theorem WriteAt.events_eq {j : Nat} (h : WriteAt s₀ j t) : t.events = s₀.events := by
  obtain ⟨_, _, _, rfl⟩ := h.moved
  rfl

theorem WriteAt.opR_eq {j : Nat} (h : WriteAt s₀ j t) : t.opR = .write := by
  obtain ⟨_, _, _, rfl⟩ := h.moved
  exact h.write

theorem WriteAt.lenR_eq {j : Nat} (h : WriteAt s₀ j t) : t.lenR = s₀.lenR := by
  obtain ⟨_, _, _, rfl⟩ := h.moved
  rfl

theorem WriteAt.lt {j : Nat} (h : WriteAt s₀ j t) : j < 4 * (s₀.lenR / 2) := by
  rw [← h.position, ← h.lenR_eq]
  exact h.inv.position_lt h.running

/-- R63: the byte offered in transfer `j` is event `j` of the command. -/
theorem WriteAt.trace_append {j : Nat} (h : WriteAt s₀ j t) {b : Byte} (hb : t.txData = some b) :
    t.trace ++ [.tx b] = s₀.trace ++ s₀.events.take (j + 1) := by
  have hserved : t.trace ++ [.tx b] = s₀.trace ++ t.events.take (t.position + 1) :=
    h.progress.served_deliver h.inv h.running hb
  rw [hserved, h.events_eq, h.position]

theorem WriteAt.moved_advance {j : Nat} (h : WriteAt s₀ j t) {b : Byte} (hb : t.txData = some b) :
    Moved s₀ (j + 1) ((t.used (s₀.peer.drop (j + 1))).deliver b).advance := by
  have htrace := h.trace_append hb
  obtain ⟨f, k, st, e⟩ := State.advance_frame ((t.used (s₀.peer.drop (j + 1))).deliver b)
  obtain ⟨_, _, _, rfl⟩ := h.moved
  exact ⟨f, k, st, e.trans (congrArg (fun tr => { s₀ with
    fsm := f, kR := k, status := st, turns := [], peer := s₀.peer.drop (j + 1), trace := tr }) htrace)⟩

/-- A byte accepted leads to the next transfer, or ends the WRITE in `OK` after its last byte. -/
theorem WriteAt.step_accepted {j : Nat} (h : WriteAt s₀ j t) (hp : s₀.peer[j]? = some p) (ha : txAnswer p = .ok) :
    ∃ u, step t = .next u ∧
      (WriteAt s₀ (j + 1) u ∨
       Moved s₀ (j + 1) u ∧ u.fsm = .idle ∧ j + 1 = 4 * (s₀.lenR / 2) ∧ u.status = .ok) := by
  obtain ⟨b, hb⟩ := h.inv.exists_txData h.running h.opR_eq
  have hstep := step_of_accepted h.inv.reachesPbuf h.nextTurn hb (h.peer_eq_cons hp) ha
  have hmoved := h.moved_advance hb
  refine ⟨_, hstep, ?_⟩
  rcases State.advance_position (s := (t.used (s₀.peer.drop (j + 1))).deliver b) h.running with
    ⟨hrun, hpos, -⟩ | ⟨hidle, hpos, hst⟩
  · exact .inl ⟨hmoved, step_keeps_blockInv h.inv hstep, hrun, hpos.trans (congrArg Nat.succ h.position), h.write⟩
  · have hlast : j + 1 = 4 * (s₀.lenR / 2) := by
      rw [← h.position, ← h.lenR_eq]
      exact hpos
    exact .inr ⟨hmoved, hidle, hlast, hst⟩

/-- A byte failed ends the WRITE, whose chunk is that of the byte's position (R120). -/
theorem WriteAt.step_failed {j : Nat} (h : WriteAt s₀ j t) (hp : s₀.peer[j]? = some p) (ha : txAnswer p = .err) :
    step t = .next ((t.used (s₀.peer.drop (j + 1))).raise .transportError (j / 4)) := by
  obtain ⟨b, hb⟩ := h.inv.exists_txData h.running h.opR_eq
  rw [step_of_failed h.inv.reachesPbuf h.nextTurn hb (h.peer_eq_cons hp) ha, ← t.position_div_four, h.position]

theorem run_one (h : step s = .next t) : core.run 1 s = .next t :=
  (run_next h).trans (run_zero t)

/-- The peer accepts in its first `n` entries. -/
def AcceptsFirst (ps : List PeerSignals) (n : Nat) : Prop := ∀ i < n, ∃ p, ps[i]? = some p ∧ txAnswer p = .ok

theorem acceptsFirst_of_take {ps : List PeerSignals} {n : Nat} (hn : n ≤ ps.length)
    (h : ∀ p ∈ ps.take n, txAnswer p = .ok) : AcceptsFirst ps n := by
  intro i hi
  have hlt : i < ps.length := hi.trans_le hn
  exact ⟨ps[i], List.getElem?_eq_getElem hlt, h _ (List.mem_take_iff_getElem.2 ⟨i, by omega, rfl⟩)⟩

/-- While the peer accepts, each step is one byte: after `j` steps, short of the WRITE's last byte, it is in transfer `j`. -/
theorem WriteAt.run (h : WriteAt s₀ 0 s₀) {j : Nat} (hj : j < 4 * (s₀.lenR / 2)) (hok : AcceptsFirst s₀.peer j) :
    ∃ t : State, core.run j s₀ = .next t ∧ WriteAt s₀ j t := by
  induction j with
  | zero => exact ⟨s₀, run_zero s₀, h⟩
  | succ j ih =>
    obtain ⟨t, hrun, ht⟩ := ih (by omega) fun i hi => hok i (by omega)
    obtain ⟨p, hp, ha⟩ := hok j (by omega)
    obtain ⟨u, hstep, hu | ⟨-, -, hlast, -⟩⟩ := ht.step_accepted hp ha
    · exact ⟨u, (run_add hrun).trans (run_one hstep), hu⟩
    · omega

/-- R119: the step after the last one of `WriteAt.run` ends the WRITE in `OK`. -/
theorem WriteAt.run_to_end (h : WriteAt s₀ 0 s₀) (hok : AcceptsFirst s₀.peer (4 * (s₀.lenR / 2))) :
    ∃ t : State, core.run (4 * (s₀.lenR / 2)) s₀ = .next t ∧ Moved s₀ (4 * (s₀.lenR / 2)) t ∧ t.fsm = .idle ∧
      t.status = .ok := by
  obtain ⟨j, hj⟩ : ∃ j, 4 * (s₀.lenR / 2) = j + 1 := Nat.exists_eq_add_one.2 h.lt
  rw [hj] at hok ⊢
  obtain ⟨t, hrun, ht⟩ := h.run (j := j) (by omega) fun i hi => hok i (by omega)
  obtain ⟨p, hp, ha⟩ := hok j (by omega)
  obtain ⟨u, hstep, hu | ⟨hmoved, hidle, -, hst⟩⟩ := ht.step_accepted hp ha
  · have := hu.lt
    omega
  · exact ⟨u, (run_add hrun).trans (run_one hstep), hmoved, hidle, hst⟩

/-! ## The two traces -/

/-- The command on the port just accepted and started. -/
def State.started (s : State) (op : Op) : State :=
  s.dropTurn.takeOffer.startCommand op s.cmdPort.phy s.cmdPort.reg s.cmdPort.len

theorem step_started (hu : s.nextTurn = .seq) (hf : s.fsm = .idle) (hv : s.cmdPort.valid = true)
    (heven : s.cmdPort.len % 2 = 0) (hpos : 0 < s.cmdPort.len) (hmax : s.cmdPort.len ≤ s.params.maxLen) :
    step s = .next (s.started (if s.cmdPort.rd then .read else .write)) := by
  rw [step_acceptCommand hu hf hv, acceptCommand_of_le (s := s.dropTurn.takeOffer) hf hmax, State.accept,
    if_neg (by omega), if_neg hpos.ne']
  rfl

/-- R110, R111: a WRITE of even length accepted starts in transfer 0, with no byte moved. -/
theorem write_started (hinv : BlockInv s) (hf : s.fsm = .idle) (hturns : s.turns = []) (hv : s.cmdPort.valid = true)
    (hrd : s.cmdPort.rd = false) (heven : s.cmdPort.len % 2 = 0) (hpos : 0 < s.cmdPort.len)
    (hmax : s.cmdPort.len ≤ s.params.maxLen) :
    step s = .next (s.started .write) ∧ WriteAt (s.started .write) 0 (s.started .write) := by
  have hstep : step s = .next (s.started .write) := by
    have h := step_started (by rw [State.nextTurn, hturns]) hf hv heven hpos hmax
    rwa [hrd] at h
  have hmoved : Moved (s.started .write) 0 (s.started .write) :=
    ⟨.txh0, 0, .none, by simp [State.started, State.startCommand, hturns]⟩
  exact ⟨hstep, hmoved, step_keeps_blockInv hinv hstep, by simp [State.started], rfl, rfl⟩

/-- R119: every event of a WRITE is a byte sent. -/
theorem sent_commandEvents_length (hdr : Header) (pbuf : Nat → Byte) (n : Nat) :
    ((commandEvents .write hdr pbuf n).filterMap StreamEvent.sent).length = 4 * (n / 2) := by
  simp [commandEvents, chunkEvents, payloadEvent, StreamEvent.sent, List.filterMap_flatMap, List.length_flatMap,
    Nat.mul_comm]

theorem State.txBytes_of_trace {es : List StreamEvent} (h : t.trace = s.trace ++ es) :
    t.txBytes = s.txBytes ++ es.filterMap StreamEvent.sent := by
  rw [State.txBytes, h, List.filterMap_append]
  rfl

/-- Settles O55: the bytes accepted are the events of the command's stream, which `WriteAt.run_to_end` moves to its end. -/
theorem writeSuccessTrace : Obligations.WriteSuccessTrace := by
  intro s hinv hf hturns hv hrd heven hpos hmax hlen hok
  obtain ⟨hstep, hstart⟩ := write_started hinv hf hturns hv hrd heven hpos hmax
  obtain ⟨t, hrun, ⟨_, _, _, rfl⟩, hidle, hst⟩ := hstart.run_to_end (acceptsFirst_of_take hlen hok)
  have htrace : s.trace ++ (s.started .write).events.take (4 * (s.cmdPort.len / 2)) =
      s.trace ++ (s.started .write).events :=
    congrArg (s.trace ++ ·) (List.take_of_length_le (commandEvents_length _ _ _ _).le)
  refine ⟨_, _, rfl, (run_add (run_one hstep)).trans hrun, hidle, hst, rfl, fun _ => rfl, rfl, htrace, ?_⟩
  rw [State.txBytes_of_trace (s := s) htrace, List.length_append]
  exact congrArg (s.txBytes.length + ·) (sent_commandEvents_length _ _ _)

/-- Settles O56: `WriteAt.run` accepts the bytes before position `j`, and the step that fails there adds none. -/
theorem writeFailurePrefix : Obligations.WriteFailurePrefix := by
  intro s j bad hinv hf hturns hv hrd heven hmax hj hok hbad hfail
  obtain ⟨hlt, -⟩ := List.getElem?_eq_some_iff.1 hbad
  obtain ⟨hstep, hstart⟩ := write_started hinv hf hturns hv hrd heven (by omega) hmax
  obtain ⟨t, hrun, ht⟩ := hstart.run hj (acceptsFirst_of_take hlt.le hok)
  have hend := ht.step_failed hbad hfail
  have hall := (run_next hstep).trans ((run_add hrun).trans (run_one hend))
  obtain ⟨_, _, _, rfl⟩ := ht.moved
  exact ⟨_, _, rfl, hall, rfl, rfl, rfl, fun _ => rfl, rfl, rfl⟩

end Sys2Proof.Machine
end

section
/-! PROOFS. The statements of 42_read_sequence.md. Acceptance (O13); the two receive states, each a `StreamGet` to `rxIndex`
(O22 to O24); a running READ does not read PBUF (O29). The trace (O57) is one induction over the transfers served so far. -/

namespace Sys2Proof.Machine

variable {s s₀ t : State} {p : PeerSignals} {rest : List PeerSignals} {o : RxOutcome} {v : Byte}

/-- Settles O13: `READ` is an acceptance. -/
theorem readAcceptanceCompletes : Obligations.ReadAcceptanceCompletes := fun phy reg _ _ hf hn =>
  acceptCommand_of_le hf hn .read phy reg

/-! ## The receive states -/

theorem streamGet_of_byte (ha : rxAnswer p = .got (.byte v)) (i : Nat) (f : State → State) (s : State) :
    streamGet i p f s = .next (f ((s.consume (.byte v)).storeByte i v)) := by
  rw [streamGet, ha]

theorem streamGet_of_failed (ho : o = .eof ∨ o = .err) (ha : rxAnswer p = .got o) (i : Nat) (f : State → State)
    (s : State) : streamGet i p f s = .next (s.consume o).rxFail := by
  rcases ho with rfl | rfl <;> rw [streamGet, ha]

theorem streamGet_congr {f g : State → State} {i : Nat}
    (h : ∀ v, f ((s.consume (.byte v)).storeByte i v) = g ((s.consume (.byte v)).storeByte i v)) :
    streamGet i p f s = streamGet i p g s := by
  simp only [streamGet, h]

theorem State.advance_rxd0 (hf : s.fsm = .rxd0) : s.advance = s.goto .rxd1 := by
  rw [State.advance, hf]

theorem State.advance_rxd1 (hf : s.fsm = .rxd1) : s.advance = s.endChunk := by
  rw [State.advance, hf]

theorem State.rxIndex_rxd0 (hf : s.fsm = .rxd0) : s.rxIndex = 2 * s.kR := by
  simp [State.rxIndex, hf, State.chunkBase]

theorem State.rxIndex_rxd1 (hf : s.fsm = .rxd1) : s.rxIndex = 2 * s.kR + 1 := by
  simp [State.rxIndex, hf, State.chunkBase]

theorem State.rxReady_iff : s.rxReady = true ↔ s.fsm = .rxd0 ∨ s.fsm = .rxd1 := by
  unfold State.rxReady
  cases s.fsm <;> simp

/-- R132, R133: in both receive states the transfer is a `StreamGet` to `rxIndex`, which goes on as `advance` does. -/
theorem transfer_of_rxReady (hk : s.chunkBase + 1 < s.params.maxLen) (hrx : s.rxReady = true) (p : PeerSignals) :
    transfer p s = streamGet s.rxIndex p State.advance s := by
  rcases State.rxReady_iff.1 hrx with hf | hf
  · simp only [transfer, hf, stepRxd0, inPbuf_of_lt hk, State.rxIndex_rxd0 hf]
    exact streamGet_congr fun v => (State.advance_rxd0 (s := (s.consume (.byte v)).storeByte _ v) hf).symm
  · simp only [transfer, hf, stepRxd1, inPbuf_of_lt hk, State.rxIndex_rxd1 hf]
    exact streamGet_congr fun v => (State.advance_rxd1 (s := (s.consume (.byte v)).storeByte _ v) hf).symm

theorem step_streamGet (hk : s.chunkBase + 1 < s.params.maxLen) (hu : s.nextTurn = .seq) (hrx : s.rxReady = true)
    (hp : s.peer = p :: rest) : step s = streamGet s.rxIndex p State.advance (s.used rest) := by
  rw [step_seq hu, seqTurn_transfer (s := s.dropTurn) (State.fsm_ne_idle_of_rxReady hrx) hp]
  exact transfer_of_rxReady (s := s.used rest) hk hrx p

/-- The byte `v` answered in `s` and stored at `i`, before the sequencer goes on. -/
def State.received (s : State) (i : Nat) (v : Byte) : State := (s.consume (.byte v)).storeByte i v

/-- R38, R140: a byte the peer answers is stored as received. -/
theorem step_of_received (h : BlockInv s) (hu : s.nextTurn = .seq) (hrx : s.rxReady = true) (hp : s.peer = p :: rest)
    (ha : rxAnswer p = .got (.byte v)) : step s = .next ((s.used rest).received s.rxIndex v).advance := by
  rw [step_streamGet (h.chunk_in_pbuf (State.fsm_ne_idle_of_rxReady hrx)) hu hrx hp, streamGet_of_byte ha]
  rfl

/-- R137: `Eof` and `Err` fail the slice. -/
theorem step_of_receive_failed (h : BlockInv s) (hu : s.nextTurn = .seq) (hrx : s.rxReady = true)
    (hp : s.peer = p :: rest) (ho : o = .eof ∨ o = .err) (ha : rxAnswer p = .got o) :
    step s = .next ((s.used rest).consume o).rxFail := by
  rw [step_streamGet (h.chunk_in_pbuf (State.fsm_ne_idle_of_rxReady hrx)) hu hrx hp, streamGet_of_failed ho ha]

theorem State.pbufByte_received (s : State) (i j : Nat) (v : Byte) :
    (s.received i v).pbufByte j = if j = i then v else s.pbufByte j :=
  State.pbufByte_storeByte _ i j v

/-- Settles O22: in `RXD0` the byte goes to `2*k_r`, and the sequencer on to `RXD1`. -/
theorem rxd0StoresFirstByte : Obligations.Rxd0StoresFirstByte := by
  intro s p rest v hinv hu hf hp ha
  have hstep := step_of_received hinv hu (State.rxReady_iff.2 (.inl hf)) hp ha
  rw [State.rxIndex_rxd0 hf, State.advance_rxd0 (s := (s.used rest).received _ v) hf] at hstep
  exact ⟨_, hstep, rfl, fun i => State.pbufByte_received (s.used rest) (2 * s.kR) i v⟩

/-- Settles O23: in `RXD1` the byte goes to `2*k_r + 1`, and the chunk ends in one of `EndChunk`'s ways (R116). -/
theorem rxd1StoresSecondByte : Obligations.Rxd1StoresSecondByte := by
  intro s p rest v hinv hu hf hp ha
  have hstep := step_of_received hinv hu (State.rxReady_iff.2 (.inr hf)) hp ha
  rw [State.rxIndex_rxd1 hf] at hstep
  refine ⟨_, hstep, fun hlast => ?_, fun hmore => ?_, fun i => ?_⟩
  · rw [State.advance_rxd1 (s := (s.used rest).received _ v) hf,
      State.endChunk_of_last (s := (s.used rest).received _ v) hlast]
    rfl
  · rw [State.advance_rxd1 (s := (s.used rest).received _ v) hf,
      State.endChunk_of_not_last (s := (s.used rest).received _ v) hmore]
    rfl
  · rw [State.advance_pbufByte]
    exact State.pbufByte_received (s.used rest) (2 * s.kR + 1) i v

/-- Settles O24: `RxFail` draws both bytes of the slice, whichever of them was to be received, and raises. -/
theorem failedReceiveDrawsItsSlice : Obligations.FailedReceiveDrawsItsSlice := by
  intro s p rest o hinv hu hf hp ha ho
  have hpbuf := State.pbufByte_drawSlice ((s.used rest).consume o)
  refine ⟨_, step_of_receive_failed hinv hu (State.rxReady_iff.2 hf) hp ho ha, rfl, ?_, ?_, fun i hlow hhigh => ?_⟩
  · exact (hpbuf _).trans ((if_neg (Nat.ne_of_lt (Nat.lt_succ_self _))).trans (if_pos rfl))
  · exact (hpbuf _).trans (if_pos rfl)
  · exact (hpbuf i).trans ((if_neg hhigh).trans (if_neg hlow))

/-! ## A running READ does not read PBUF -/

/-- R113: a running READ sends its header or receives. -/
theorem BlockInv.sends_header_or_receives (h : BlockInv s) (hf : s.fsm ≠ .idle) (hop : s.opR = .read) :
    (s.fsm = .txh0 ∨ s.fsm = .txh1) ∨ s.rxReady = true := by
  obtain ⟨-, -, -, -, -, hwrite, -⟩ := h.runningOk hf
  cases hs : s.fsm with
  | idle => exact absurd hs hf
  | txh0 => exact .inl (.inl rfl)
  | txh1 => exact .inl (.inr rfl)
  | txd0 => cases hop.symm.trans (hwrite (.inl hs))
  | txd1 => cases hop.symm.trans (hwrite (.inr hs))
  | rxd0 => exact .inr (State.rxReady_iff.2 (.inl hs))
  | rxd1 => exact .inr (State.rxReady_iff.2 (.inr hs))

/-- The state with other contents of PBUF. -/
def State.withPbuf (s : State) (m : Memory) (e : Nat) : State := { s with pbuf := m, pbufEpoch := e }

/-- Two steps end the same way, and leave everything but PBUF the same. -/
def AlikeOffPbuf (r r' : Result) : Prop := mapNext (·.withPbuf [] 0) r = mapNext (·.withPbuf [] 0) r'

/-- R112, R113: a byte of the header is offered whatever PBUF holds. -/
theorem State.exists_txData_of_header (hf : s.fsm = .txh0 ∨ s.fsm = .txh1) :
    ∃ b, ∀ m e, (s.withPbuf m e).txData = some b := by
  rcases hf with hf | hf
  · exact ⟨headerHigh s.hdrR, fun m e => State.txData_txh0 (s := s.withPbuf m e) hf⟩
  · exact ⟨headerLow s.hdrR, fun m e => State.txData_txh1 (s := s.withPbuf m e) hf⟩

theorem State.endChunk_withPbuf (s : State) (m : Memory) (e : Nat) :
    (s.withPbuf m e).endChunk = s.endChunk.withPbuf m e := by
  rcases endChunk_cases s with ⟨hlast, h⟩ | ⟨hmore, h⟩
  · rw [h, State.endChunk_of_last (s := s.withPbuf m e) hlast]
    rfl
  · rw [h, State.endChunk_of_not_last (s := s.withPbuf m e) hmore]
    rfl

/-- Where a served transfer leads does not depend on PBUF. -/
theorem State.advance_withPbuf (s : State) (m : Memory) (e : Nat) :
    (s.withPbuf m e).advance = s.advance.withPbuf m e := by
  have hfsm : (s.withPbuf m e).fsm = s.fsm := rfl
  unfold State.advance
  rw [hfsm]
  cases s.fsm with
  | txd1 | rxd1 => exact s.endChunk_withPbuf m e
  | idle | txh0 | txh1 | txd0 | rxd0 => rfl

theorem alikeOffPbuf_advance (s : State) (m : Memory) (e : Nat) :
    AlikeOffPbuf (.next (s.withPbuf m e).advance) (.next s.advance) := by
  rw [State.advance_withPbuf]
  rfl

theorem streamPut_withPbuf (b : Byte) (p : PeerSignals) (s : State) (m : Memory) (e : Nat) :
    AlikeOffPbuf (streamPut b p State.advance (s.withPbuf m e)) (streamPut b p State.advance s) := by
  unfold streamPut
  cases txAnswer p with
  | ok => exact alikeOffPbuf_advance (s.deliver b) m e
  | waits | err | both => rfl

/-- A byte received is stored over what PBUF holds, and a failed slice is drawn over it. -/
theorem streamGet_withPbuf (i : Nat) (p : PeerSignals) (s : State) (m : Memory) (e : Nat) :
    AlikeOffPbuf (streamGet i p State.advance (s.withPbuf m e)) (streamGet i p State.advance s) := by
  unfold streamGet
  rcases rxAnswer p with _ | (v | _ | _) | _
  case got.byte => exact alikeOffPbuf_advance (s.received i v) (m.write i v) e
  all_goals rfl

/-- Settles O29: of the states of a READ, those of the header send the same byte whatever PBUF holds, and the receive states
only write it. -/
theorem readNeverReadsPbuf : Obligations.ReadNeverReadsPbuf := by
  intro s m e hinv hb hop hu
  have hf : s.fsm ≠ .idle := s.busy_iff.1 hb
  change AlikeOffPbuf (step (s.withPbuf m e)) (step s)
  cases hp : s.peer with
  | nil =>
    rw [step_seq hu, step_seq (s := s.withPbuf m e) hu, seqTurn_silent (s := s.dropTurn) hf hp,
      seqTurn_silent (s := (s.withPbuf m e).dropTurn) hf hp]
    rfl
  | cons p rest =>
    rcases hinv.sends_header_or_receives hf hop with hheader | hrx
    · obtain ⟨b, hdata⟩ := State.exists_txData_of_header hheader
      rw [step_streamPut hinv.reachesPbuf hu (hdata s.pbuf s.pbufEpoch) hp,
        step_streamPut (s := s.withPbuf m e) hinv.reachesPbuf hu (hdata m e) hp]
      exact streamPut_withPbuf b p (s.used rest) m e
    · have hk := hinv.chunk_in_pbuf hf
      rw [step_streamGet hk hu hrx hp, step_streamGet (s := s.withPbuf m e) hk hu hrx hp]
      exact streamGet_withPbuf s.rxIndex p (s.used rest) m e

/-! ## The run of a READ whose host makes no further step -/

theorem State.position_mod_four (s : State) : s.position % 4 = fsmOffset s.fsm := by
  have := fsmOffset_lt_four s.fsm
  simp only [State.position]
  omega

/-- How many bytes a READ has received before transfer `j`: two of each slice done, and `RXD1` comes after one of its own. In
a receive state it is the index of the byte to come. -/
def receivedBefore (j : Nat) : Nat := 2 * (j / 4) + (j % 4 - 2)

/-- The peer's entry `p` serves transfer `j` of a READ whose bytes are `rx`. -/
def ServesRead (rx : Nat → Byte) (j : Nat) (p : PeerSignals) : Prop :=
  (j % 4 < 2 → txAnswer p = .ok) ∧ (2 ≤ j % 4 → rxAnswer p = .got (.byte (rx (receivedBefore j))))

/-- From the READ just started in `s₀` to `t` the peer served `j` transfers, whose bytes `rx` are in PBUF, no turn is listed,
and nothing else changed but where the sequencer is and the stream. -/
def Filled (s₀ : State) (rx : Nat → Byte) (j : Nat) (t : State) : Prop :=
  (∃ f k st m tr, t = { s₀ with
    fsm := f, kR := k, status := st, pbuf := m, turns := [], peer := s₀.peer.drop j, trace := tr }) ∧
  ∀ i, t.pbufByte i = if i < receivedBefore j then rx i else s₀.pbufByte i

/-- `t` is in transfer `j` of the READ just started in `s₀`. -/
structure ReadAt (s₀ : State) (rx : Nat → Byte) (j : Nat) (t : State) : Prop where
  filled : Filled s₀ rx j t
  inv : BlockInv t
  running : t.fsm ≠ .idle
  position : t.position = j
  progress : Progress s₀.trace t
  read : s₀.opR = .read

/-- The READ just started in `s₀` ended in `OK` with its `j`-th transfer, its last. -/
structure ReadDone (s₀ : State) (rx : Nat → Byte) (j : Nat) (t : State) : Prop where
  filled : Filled s₀ rx j t
  idle : t.fsm = .idle
  ok : t.status = .ok
  last : j = 4 * (s₀.lenR / 2)
  trace : t.trace = s₀.trace ++ commandEvents .read s₀.hdrR t.pbufByte s₀.lenR

section Stage

variable {rx : Nat → Byte} {j : Nat}

theorem Filled.advance (h : Filled s₀ rx j t) : Filled s₀ rx j t.advance := by
  obtain ⟨⟨_, _, _, m, tr, rfl⟩, hpbuf⟩ := h
  obtain ⟨f, k, st, e⟩ := State.advance_frame _
  exact ⟨⟨f, k, st, m, tr, e⟩, fun i => by rw [State.advance_pbufByte, hpbuf]⟩

theorem Filled.latched (h : Filled s₀ rx j t) : t.opR = s₀.opR ∧ t.hdrR = s₀.hdrR ∧ t.lenR = s₀.lenR := by
  obtain ⟨⟨_, _, _, _, _, rfl⟩, -⟩ := h
  exact ⟨rfl, rfl, rfl⟩

/-- A byte of the header is none of PBUF's. -/
theorem Filled.deliver (h : Filled s₀ rx j t) (hj : j % 4 < 2) (b : Byte) :
    Filled s₀ rx (j + 1) ((t.used (s₀.peer.drop (j + 1))).deliver b) := by
  obtain ⟨⟨f, k, st, m, tr, rfl⟩, hpbuf⟩ := h
  have hcount : receivedBefore (j + 1) = receivedBefore j := by
    unfold receivedBefore
    omega
  exact ⟨⟨f, k, st, m, tr ++ [.tx b], rfl⟩, fun i => hcount ▸ hpbuf i⟩

/-- A byte received fills PBUF one byte further. -/
theorem Filled.received (h : Filled s₀ rx j t) (hj : 2 ≤ j % 4) :
    Filled s₀ rx (j + 1)
      ((t.used (s₀.peer.drop (j + 1))).received (receivedBefore j) (rx (receivedBefore j))) := by
  obtain ⟨⟨f, k, st, m, tr, rfl⟩, hpbuf⟩ := h
  have hcount : receivedBefore (j + 1) = receivedBefore j + 1 := by
    unfold receivedBefore
    omega
  refine ⟨⟨f, k, st, _, _, rfl⟩, fun i => ?_⟩
  rw [State.pbufByte_received, hcount]
  by_cases hi : i = receivedBefore j
  · rw [if_pos hi, if_pos (by omega), hi]
  · rw [if_neg hi]
    exact (hpbuf i).trans (if_congr (by omega) rfl rfl)

theorem ReadAt.nextTurn (h : ReadAt s₀ rx j t) : t.nextTurn = .seq := by
  obtain ⟨⟨_, _, _, _, _, rfl⟩, -⟩ := h.filled
  rfl

theorem ReadAt.peer_eq_cons (h : ReadAt s₀ rx j t) (hp : s₀.peer[j]? = some p) :
    t.peer = p :: s₀.peer.drop (j + 1) := by
  obtain ⟨⟨_, _, _, _, _, rfl⟩, -⟩ := h.filled
  obtain ⟨hlt, rfl⟩ := List.getElem?_eq_some_iff.1 hp
  exact List.drop_eq_getElem_cons hlt

theorem ReadAt.opR_eq (h : ReadAt s₀ rx j t) : t.opR = .read := by
  obtain ⟨hop, -, -⟩ := h.filled.latched
  exact hop.trans h.read

theorem ReadAt.lt (h : ReadAt s₀ rx j t) : j < 4 * (s₀.lenR / 2) := by
  obtain ⟨-, -, hlen⟩ := h.filled.latched
  rw [← h.position, ← hlen]
  exact h.inv.position_lt h.running

/-- The transfers of a slice are two of its header and two of its bytes. -/
theorem ReadAt.sends_or_receives (h : ReadAt s₀ rx j t) :
    ((t.fsm = .txh0 ∨ t.fsm = .txh1) ∧ j % 4 < 2) ∨ (t.rxReady = true ∧ 2 ≤ j % 4 ∧ t.rxIndex = receivedBefore j) := by
  have hk : j / 4 = t.kR := h.position ▸ t.position_div_four
  have hoff : j % 4 = fsmOffset t.fsm := h.position ▸ t.position_mod_four
  rcases h.inv.sends_header_or_receives h.running h.opR_eq with hheader | hrx
  · refine .inl ⟨hheader, hoff ▸ ?_⟩
    rcases hheader with hf | hf <;> simp [hf, fsmOffset]
  · refine .inr ⟨hrx, ?_⟩
    rw [receivedBefore, hk, hoff]
    rcases State.rxReady_iff.1 hrx with hf | hf
    · simp [hf, fsmOffset, State.rxIndex_rxd0 hf]
    · simp [hf, fsmOffset, State.rxIndex_rxd1 hf]

/-- A transfer served leaves its byte, sent or stored, in a state `u` from which the sequencer goes on. -/
theorem ReadAt.step_eq_advance (h : ReadAt s₀ rx j t) (hp : s₀.peer[j]? = some p) (ha : ServesRead rx j p) :
    ∃ u : State, step t = .next u.advance ∧ Filled s₀ rx (j + 1) u ∧ u.fsm = t.fsm ∧ u.position = t.position := by
  obtain ⟨hput, hget⟩ := ha
  rcases h.sends_or_receives with ⟨hheader, hj⟩ | ⟨hrx, hj, hindex⟩
  · obtain ⟨b, hdata⟩ := State.exists_txData_of_header hheader
    exact ⟨_, step_of_accepted h.inv.reachesPbuf h.nextTurn (hdata t.pbuf t.pbufEpoch) (h.peer_eq_cons hp) (hput hj),
      h.filled.deliver hj b, rfl, rfl⟩
  · have hstep := step_of_received h.inv h.nextTurn hrx (h.peer_eq_cons hp) (hget hj)
    rw [hindex] at hstep
    exact ⟨_, hstep, h.filled.received hj, rfl, rfl⟩

/-- A transfer served leads to the next one, or ends the READ in `OK` after its last one. -/
theorem ReadAt.step_served (h : ReadAt s₀ rx j t) (hp : s₀.peer[j]? = some p) (ha : ServesRead rx j p) :
    ∃ u, step t = .next u ∧ (ReadAt s₀ rx (j + 1) u ∨ ReadDone s₀ rx (j + 1) u) := by
  obtain ⟨u, hstep, hfilled, hfsm, hpos⟩ := h.step_eq_advance hp ha
  obtain ⟨hprogress, hwhole, -⟩ := running_step_followsStream h.inv h.running h.progress h.nextTurn hstep
  obtain ⟨-, hhdr, hlen⟩ := h.filled.latched
  obtain ⟨-, -, hulen⟩ := hfilled.latched
  rw [h.opR_eq, hhdr, hlen] at hwhole
  rw [h.position] at hpos
  refine ⟨_, hstep, ?_⟩
  rcases State.advance_position (hfsm ▸ h.running) with ⟨hrun, hnext, -⟩ | ⟨hidle, hlast, hok⟩
  · exact .inl ⟨hfilled.advance, step_keeps_blockInv h.inv hstep, hrun, hnext.trans (congrArg Nat.succ hpos),
      hprogress ((State.busy_iff _).2 hrun), h.read⟩
  · rw [hpos, hulen] at hlast
    exact .inr ⟨hfilled.advance, hidle, hok, hlast, hwhole ((State.busy_false_iff _).2 hidle) hok⟩

/-- R135: PBUF holds the bytes received, and from `N` on what it held. -/
theorem ReadDone.pbufByte (h : ReadDone s₀ rx j t) (heven : s₀.lenR % 2 = 0) (i : Nat) :
    t.pbufByte i = if i < s₀.lenR then rx i else s₀.pbufByte i := by
  obtain ⟨-, hpbuf⟩ := h.filled
  have hcount : receivedBefore j = s₀.lenR := by
    rw [h.last, receivedBefore]
    omega
  exact hcount ▸ hpbuf i

/-- The command's stream reads in PBUF the bytes received. -/
theorem ReadDone.trace_received (h : ReadDone s₀ rx j t) (heven : s₀.lenR % 2 = 0) :
    t.trace = s₀.trace ++ commandEvents .read s₀.hdrR rx s₀.lenR := by
  have hlen : 2 * (s₀.lenR / 2) = s₀.lenR := Nat.mul_div_cancel' (Nat.dvd_of_mod_eq_zero heven)
  have hbelow : ∀ i < 2 * (s₀.lenR / 2), t.pbufByte i = rx i := fun i hi =>
    (h.pbufByte heven i).trans (if_pos (hlen ▸ hi))
  have hevents := commandEvents_congr .read s₀.hdrR rx hbelow
  rw [hlen] at hevents
  rw [h.trace, hevents]

end Stage

/-- A property of stages that every step carries on to the next holds after a run of as many steps. -/
theorem run_of_stages {P : Nat → State → Prop} (hstart : P 0 s) {n : Nat}
    (hstep : ∀ j < n, ∀ t, P j t → ∃ u, step t = .next u ∧ P (j + 1) u) :
    ∃ t : State, core.run n s = .next t ∧ P n t := by
  induction n with
  | zero => exact ⟨s, run_zero s, hstart⟩
  | succ n ih =>
    obtain ⟨t, hrun, ht⟩ := ih fun j hj => hstep j (by omega)
    obtain ⟨u, hu, hP⟩ := hstep n (by omega) t ht
    exact ⟨u, (run_add hrun).trans (run_one hu), hP⟩

/-- R135: a READ whose every transfer is served ends in `OK`. -/
theorem ReadAt.run_to_end {rx : Nat → Byte} (h : ReadAt s₀ rx 0 s₀)
    (hserved : ∀ j < 4 * (s₀.lenR / 2), ∃ p, s₀.peer[j]? = some p ∧ ServesRead rx j p) :
    ∃ t : State, core.run (4 * (s₀.lenR / 2)) s₀ = .next t ∧ ReadDone s₀ rx (4 * (s₀.lenR / 2)) t := by
  obtain ⟨t, hrun, ht⟩ := run_of_stages (P := fun j t => ReadAt s₀ rx j t ∨ ReadDone s₀ rx j t) (.inl h)
    fun j hj t ht => by
      obtain ⟨p, hp, ha⟩ := hserved j hj
      exact (ht.resolve_right fun hdone => hj.ne hdone.last).step_served hp ha
  exact ⟨t, hrun, ht.resolve_left fun hat => hat.lt.false⟩

/-! ## The trace of a READ -/

/-- R131: a READ of even length accepted starts in transfer 0, with no byte moved. -/
theorem read_started (rx : Nat → Byte) (hinv : BlockInv s) (hf : s.fsm = .idle) (hturns : s.turns = [])
    (hv : s.cmdPort.valid = true) (hrd : s.cmdPort.rd = true) (heven : s.cmdPort.len % 2 = 0)
    (hpos : 0 < s.cmdPort.len) (hmax : s.cmdPort.len ≤ s.params.maxLen) :
    step s = .next (s.started .read) ∧ ReadAt (s.started .read) rx 0 (s.started .read) := by
  have hstep : step s = .next (s.started .read) := by
    have h := step_started (by rw [State.nextTurn, hturns]) hf hv heven hpos hmax
    rwa [hrd] at h
  have hfilled : Filled (s.started .read) rx 0 (s.started .read) :=
    ⟨⟨.txh0, 0, .none, s.pbuf, s.trace, by simp [State.started, State.startCommand, State.takeOffer, hturns]⟩,
      fun i => (if_neg i.not_lt_zero).symm⟩
  exact ⟨hstep, hfilled, step_keeps_blockInv hinv hstep, by simp [State.started], rfl, startCommand_progress _ _ _ _ _,
    rfl⟩

/-- The four entries of each slice, position by position. -/
theorem servesRead_of_chunks {rx : Nat → Byte} {ps : List PeerSignals} {n : Nat}
    (h : ∀ k < n, ∃ p0 p1 p2 p3,
      ps[4 * k]? = some p0 ∧ ps[4 * k + 1]? = some p1 ∧ ps[4 * k + 2]? = some p2 ∧ ps[4 * k + 3]? = some p3 ∧
      txAnswer p0 = .ok ∧ txAnswer p1 = .ok ∧
      rxAnswer p2 = .got (.byte (rx (2 * k))) ∧ rxAnswer p3 = .got (.byte (rx (2 * k + 1)))) :
    ∀ j < 4 * n, ∃ p, ps[j]? = some p ∧ ServesRead rx j p := by
  intro j hj
  obtain ⟨p0, p1, p2, p3, e0, e1, e2, e3, a0, a1, a2, a3⟩ := h (j / 4) (by omega)
  have hcases : j % 4 = 0 ∨ j % 4 = 1 ∨ j % 4 = 2 ∨ j % 4 = 3 := by omega
  have hj : 4 * (j / 4) + j % 4 = j := Nat.div_add_mod j 4
  rcases hcases with hr | hr | hr | hr <;> rw [hr] at hj
  · exact ⟨p0, hj ▸ e0, fun _ => a0, fun h => by omega⟩
  · exact ⟨p1, hj ▸ e1, fun _ => a1, fun h => by omega⟩
  · exact ⟨p2, hj ▸ e2, fun h => by omega, fun _ => by simpa [receivedBefore, hr] using a2⟩
  · exact ⟨p3, hj ▸ e3, fun h => by omega, fun _ => by simpa [receivedBefore, hr] using a3⟩

/-- R131: each slice of a READ sends the header. -/
theorem sent_chunkEvents_read (hdr : Header) (pbuf : Nat → Byte) (k : Nat) :
    (chunkEvents .read hdr pbuf k).filterMap StreamEvent.sent = [headerHigh hdr, headerLow hdr] := rfl

theorem received_chunkEvents_read (hdr : Header) (pbuf : Nat → Byte) (k : Nat) :
    (chunkEvents .read hdr pbuf k).filterMap StreamEvent.received =
      [.byte (pbuf (2 * k)), .byte (pbuf (2 * k + 1))] := rfl

theorem sent_commandEvents_read_length (hdr : Header) (pbuf : Nat → Byte) (n : Nat) :
    ((commandEvents .read hdr pbuf n).filterMap StreamEvent.sent).length = 2 * (n / 2) := by
  simp [commandEvents, List.filterMap_flatMap, sent_chunkEvents_read, List.length_flatMap, Nat.mul_comm]

/-- R136: a READ of `n` bytes consumes one answer a byte. -/
theorem received_commandEvents_read_length (hdr : Header) (pbuf : Nat → Byte) (n : Nat) :
    ((commandEvents .read hdr pbuf n).filterMap StreamEvent.received).length = 2 * (n / 2) := by
  simp [commandEvents, List.filterMap_flatMap, received_chunkEvents_read, List.length_flatMap, Nat.mul_comm]

theorem State.rxAnswers_of_trace {es : List StreamEvent} (h : t.trace = s.trace ++ es) :
    t.rxAnswers = s.rxAnswers ++ es.filterMap StreamEvent.received := by
  rw [State.rxAnswers, h, List.filterMap_append]
  rfl

/-- Settles O57: `ReadAt.run_to_end` fills PBUF with the bytes received, so the command's stream is that of `rx`. -/
theorem readSuccessTrace : Obligations.ReadSuccessTrace := by
  intro s rx hinv hf hturns hv hrd heven hpos hmax hpeer
  obtain ⟨hstep, hstart⟩ := read_started rx hinv hf hturns hv hrd heven hpos hmax
  obtain ⟨t, hrun, hdone⟩ := hstart.run_to_end (servesRead_of_chunks hpeer)
  have hpbuf := hdone.pbufByte heven
  have htrace : t.trace = s.trace ++ commandEvents .read (s.started .read).hdrR rx s.cmdPort.len :=
    hdone.trace_received heven
  have hsent : t.txBytes.length = s.txBytes.length + 2 * (s.cmdPort.len / 2) := by
    rw [State.txBytes_of_trace htrace, List.length_append, sent_commandEvents_read_length]
  have hgot : t.rxAnswers.length = s.rxAnswers.length + s.cmdPort.len := by
    rw [State.rxAnswers_of_trace htrace, List.length_append, received_commandEvents_read_length,
      Nat.mul_div_cancel' (Nat.dvd_of_mod_eq_zero heven)]
  have hidle := hdone.idle
  have hok := hdone.ok
  obtain ⟨⟨_, _, _, _, _, rfl⟩, -⟩ := hdone.filled
  exact ⟨_, _, rfl, (run_add (run_one hstep)).trans hrun, hidle, hok, rfl, rfl, hpbuf, htrace, hsent, hgot⟩

end Sys2Proof.Machine
end

section
/-! PROOFS. The statements of 60_exceptions.md. A length above `MAX_LEN` (O14); a step moves at most one byte (O27); how a
running command ends (O32); a step is refused exactly in R156's five situations (O33), so a run that comes to one stays
refused (O34); a reset wins over the peer's signals (O40). -/

namespace Sys2Proof.Machine

variable {s t : State} {r : Refusal}

/-- Settles O14: both commands are the one acceptance, which compares with `MAX_LEN` before it looks at parity. -/
theorem lengthAboveMaxIsRefused : Obligations.LengthAboveMaxIsRefused := fun phy reg _ _ hf hn =>
  ⟨acceptCommand_of_gt hf hn .write phy reg, acceptCommand_of_gt hf hn .read phy reg⟩

/-! ## One transfer a step -/

/-- R111: an acceptance does no stream I/O. -/
theorem idle_step_trace (hf : s.fsm = .idle) (hu : s.nextTurn = .seq) (h : step s = .next t) : t.trace = s.trace := by
  cases hv : s.cmdPort.valid with
  | false =>
    rw [step_seq hu, seqTurn_idle (s := s.dropTurn) hf hv] at h
    cases h
    rfl
  | true =>
    rw [step_acceptCommand hu hf hv] at h
    obtain ⟨_, _, _, _, _, _, _, rfl, -⟩ := acceptCommand_frame h
    rfl

/-- R159: in a transfer state, the byte sent is the one `tx_data` offers. -/
theorem running_step_trace (hinv : BlockInv s) (hf : s.fsm ≠ .idle) (hu : s.nextTurn = .seq) (h : step s = .next t) :
    t.trace = s.trace ∨
    (∃ b, s.txValid = true ∧ s.txData = some b ∧ t.trace = s.trace ++ [.tx b]) ∨
    (∃ o, s.rxReady = true ∧ t.trace = s.trace ++ [.rx o]) := by
  rcases running_step_cases hinv hf hu h with rfl | ⟨b, hb, hv, rfl⟩ | ⟨-, rfl⟩ | ⟨v, hrx, rfl⟩ | ⟨o, hrx, -, rfl⟩
  · exact .inl rfl
  · exact .inr (.inl ⟨b, hv, hb, State.advance_trace _⟩)
  · exact .inl rfl
  · exact .inr (.inr ⟨.byte v, hrx, State.advance_trace _⟩)
  · exact .inr (.inr ⟨o, hrx, rfl⟩)

/-- R181: a reset adds nothing to the stream. -/
theorem ResetNow.step_trace (hreset : ResetNow s) (h : step s = .next t) : t.trace = s.trace := by
  obtain ⟨as, ps, e⟩ := hreset.step_eq
  cases e.symm.trans h
  rfl

theorem host_step_trace (hu : s.nextTurn = .host) (h : step s = .next t) : t.trace = s.trace := by
  rcases host_step_cases hu h with hreset | ⟨_, _, _, -, -, rfl⟩ | ⟨_, _, _, _, rfl⟩
  · exact hreset.step_trace h
  · rfl
  · rfl

/-- Settles O27: only the sequencer's step in a transfer state adds to the stream, and it adds one event. -/
theorem oneTransferPerStep : Obligations.OneTransferPerStep := by
  refine ⟨fun s t hinv h => ?_, State.not_txValid_and_rxReady⟩
  cases hu : s.nextTurn with
  | host => exact .inl (host_step_trace hu h)
  | seqReset => exact .inl (ResetNow.step_trace (.inl hu) h)
  | seq =>
    by_cases hf : s.fsm = .idle
    · exact .inl (idle_step_trace hf hu h)
    · rcases running_step_trace hinv hf hu h with e | ⟨b, hsent⟩ | ⟨o, hgot⟩
      · exact .inl e
      · exact .inr (.inl ⟨b, rfl, hsent⟩)
      · exact .inr (.inr ⟨o, rfl, hgot⟩)

/-! ## How a running command ends -/

/-- R116: a served transfer that ends the command ends it in `OK`, in the last chunk. -/
theorem State.advance_of_ended (hf : s.fsm ≠ .idle) (hidle : s.advance.fsm = .idle) :
    s.advance.status = .ok ∧ s.kR + 1 = s.lenR / 2 := by
  obtain ⟨-, hlast, hok⟩ := (State.advance_position hf).resolve_left fun ⟨hrun, _⟩ => hrun hidle
  have hoffset : fsmOffset s.fsm < 4 := fsmOffset_lt_four s.fsm
  rw [State.position] at hlast
  exact ⟨hok, by omega⟩

/-- R153, R166: in the sequencer's own step a command ends by its last transfer or by a failed one. -/
theorem running_step_ends (hinv : BlockInv s) (hf : s.fsm ≠ .idle) (hu : s.nextTurn = .seq) (h : step s = .next t)
    (hidle : t.fsm = .idle) :
    (t.status = .ok ∧ t.errChunk = s.errChunk ∧ s.kR + 1 = s.lenR / 2) ∨
    (t.status = .transportError ∧ t.errChunk = s.kR) := by
  rcases running_step_cases hinv hf hu h with rfl | ⟨b, -, -, rfl⟩ | ⟨-, rfl⟩ | ⟨v, -, rfl⟩ | ⟨o, -, -, rfl⟩
  · exact absurd hidle hf
  · obtain ⟨hok, hlast⟩ := State.advance_of_ended (s := (s.used s.peer.tail).deliver b) hf hidle
    exact .inl ⟨hok, State.advance_errChunk _, hlast⟩
  · exact .inr ⟨rfl, rfl⟩
  · obtain ⟨hok, hlast⟩ := State.advance_of_ended
      (s := ((s.used s.peer.tail).consume (.byte v)).storeByte s.rxIndex v) hf hidle
    exact .inl ⟨hok, State.advance_errChunk _, hlast⟩
  · exact .inr ⟨rfl, rfl⟩

/-- R187, R188: of the host's steps only a reset ends a running command. -/
theorem resetNow_of_host_step_ends (hf : s.fsm ≠ .idle) (hu : s.nextTurn = .host) (h : step s = .next t)
    (hidle : t.fsm = .idle) : ResetNow s := by
  rcases host_step_cases hu h with hreset | ⟨_, _, _, hs, -⟩ | ⟨_, _, _, _, rfl⟩
  · exact hreset
  · exact absurd hs hf
  · exact absurd hidle hf

/-- Settles O32: the sequencer ends a command by a transfer; any other end is a reset, which clears both registers. -/
theorem runningCommandEndsInOneOfItsWays : Obligations.RunningCommandEndsInOneOfItsWays := by
  intro s t hinv hb h hend
  have hf : s.fsm ≠ .idle := s.busy_iff.1 hb
  have hidle : t.fsm = .idle := t.busy_false_iff.1 hend
  have hreset (hr : ResetNow s) : ResetNow s ∧ t.status = .none ∧ t.errChunk = 0 := by
    obtain ⟨as, ps, e⟩ := hr.step_eq
    cases e.symm.trans h
    exact ⟨hr, rfl, rfl⟩
  cases hu : s.nextTurn with
  | seq => exact (running_step_ends hinv hf hu h hidle).elim .inl fun herr => .inr (.inl herr)
  | host => exact .inr (.inr (hreset (resetNow_of_host_step_ends hf hu h hidle)))
  | seqReset => exact .inr (.inr (hreset (.inl hu)))

/-! ## Each of the five situations is refused -/

/-- R34: the step of a host access to PBUF is `hostAccess`, of a read and of a write. -/
theorem HostTouches.step_eq {i : Nat} (h : HostTouches s i) : ∃ u, step s = hostAccess i s u := by
  obtain ⟨hu, hread | ⟨b, hwrite⟩⟩ := h
  · obtain ⟨rest, hh⟩ := List.head?_eq_some_iff.1 hread
    exact ⟨_, step_pbr hu hh⟩
  · obtain ⟨rest, hh⟩ := List.head?_eq_some_iff.1 hwrite
    exact ⟨_, step_pbw hu hh⟩

theorem State.exists_txData_of_txValid (h : s.txValid = true) : ∃ b, s.txData = some b := by
  unfold State.txValid at h
  unfold State.txData
  cases hf : s.fsm <;> simp [hf] at h ⊢

theorem step_of_several_signals (hinv : BlockInv s) (hu : s.nextTurn = .seq) (hrx : s.rxReady = true)
    {p : PeerSignals} (hp : s.peer.head? = some p) (ha : rxAnswer p = .several) :
    step s = .refused .rxMultiSignal := by
  obtain ⟨rest, hp⟩ := List.head?_eq_some_iff.1 hp
  rw [step_streamGet (hinv.chunk_in_pbuf (State.fsm_ne_idle_of_rxReady hrx)) hu hrx hp, streamGet, ha]

theorem step_of_both_signals (hinv : BlockInv s) (hu : s.nextTurn = .seq) (htx : s.txValid = true)
    {p : PeerSignals} (hp : s.peer.head? = some p) (ha : txAnswer p = .both) :
    step s = .refused .txBothSignals := by
  obtain ⟨rest, hp⟩ := List.head?_eq_some_iff.1 hp
  obtain ⟨b, hb⟩ := State.exists_txData_of_txValid htx
  rw [step_streamPut hinv.reachesPbuf hu hb hp, streamPut, ha]

/-- R156: the situation of `r` is refused as `r`. -/
theorem RefusalCause.step_eq (h : RefusalCause s r) (hinv : BlockInv s) : step s = .refused r := by
  cases r with
  | notModelled mnemonic => exact h.elim
  | lenAboveMax =>
    obtain ⟨hu, hf, hv, hn⟩ := h
    rw [step_acceptCommand hu hf hv]
    exact acceptCommand_of_gt (s := s.dropTurn.takeOffer) hf hn _ _ _
  | pbufBusy =>
    obtain ⟨hb, i, htouch⟩ := h
    obtain ⟨u, e⟩ := htouch.step_eq
    rw [e, hostAccess_of_busy hb]
  | pbufRange =>
    obtain ⟨hb, i, htouch, hi⟩ := h
    obtain ⟨u, e⟩ := htouch.step_eq
    rw [e, hostAccess_of_range hb hi]
  | rxMultiSignal =>
    obtain ⟨hu, hrx, p, hp, ha⟩ := h
    exact step_of_several_signals hinv hu hrx hp ha
  | txBothSignals =>
    obtain ⟨hu, htx, p, hp, ha⟩ := h
    exact step_of_both_signals hinv hu htx hp ha

/-! ## Nothing else is refused -/

/-- R36: the encoder port's operations are never refused. -/
theorem exec_encw_ne_refused (w : BitVec 17) (s : State) (r : Refusal) : exec (decode (.encw w)) s ≠ .refused r := by
  cases hw : w.getLsbD 16 with
  | false => simp [decode_encw_send hw, exec_encodeS]
  | true => simp [decode_encw_receive hw, exec_encodeR]

/-- Of the host's actions only the accesses to PBUF can be refused. -/
theorem hostAct_refused {a : HostAction} {rest : List HostAction} (h : hostAct a rest s = .refused r) :
    ∃ i, a = .pbr i ∨ ∃ b, a = .pbw i b := by
  cases a with
  | pbr i => exact ⟨i, .inl rfl⟩
  | pbw i b => exact ⟨i, .inr ⟨b, rfl⟩⟩
  | encoder w => exact absurd h (exec_encw_ne_refused w _ r)
  | issue rd phy reg len => simp only [hostAct] at h; split at h <;> cases h
  | hold => simp only [hostAct] at h; split at h <;> cases h
  | wait => simp only [hostAct] at h; split at h <;> cases h
  | drive p => cases h
  | stat => cases h
  | rst => cases h

theorem host_step_refused (hu : s.nextTurn = .host) (h : step s = .refused r) : ∃ i, HostTouches s i := by
  cases hh : s.host with
  | nil =>
    rw [step_host hu, hostTurn, State.dropTurn_host, hh] at h
    cases h
  | cons a rest =>
    rw [step_hostAct hu hh] at h
    obtain ⟨i, rfl | ⟨b, rfl⟩⟩ := hostAct_refused h
    · exact ⟨i, hu, .inl (congrArg List.head? hh)⟩
    · exact ⟨i, hu, .inr ⟨b, congrArg List.head? hh⟩⟩

theorem refusalCause_of_host_step (hu : s.nextTurn = .host) (h : step s = .refused r) : RefusalCause s r := by
  obtain ⟨i, htouch⟩ := host_step_refused hu h
  obtain ⟨u, e⟩ := htouch.step_eq
  rcases hostAccess_cases i s u with ⟨hf, e'⟩ | ⟨hf, hi, e'⟩ | ⟨-, -, e'⟩ <;> cases (e.trans e').symm.trans h
  · exact ⟨s.busy_iff.2 hf, i, htouch⟩
  · exact ⟨s.busy_false_iff.2 hf, i, htouch, hi⟩

/-- R155: an idle sequencer is refused only by the length it is offered. -/
theorem refusalCause_of_idle_step (hf : s.fsm = .idle) (hu : s.nextTurn = .seq) (h : step s = .refused r) :
    RefusalCause s r := by
  cases hv : s.cmdPort.valid with
  | false =>
    rw [step_seq hu, seqTurn_idle (s := s.dropTurn) hf hv] at h
    cases h
  | true =>
    rw [step_acceptCommand hu hf hv] at h
    by_cases hn : s.params.maxLen < s.cmdPort.len
    · rw [acceptCommand_of_gt (s := s.dropTurn.takeOffer) hf hn] at h
      cases h
      exact ⟨hu, hf, hv, hn⟩
    · rw [acceptCommand_of_le (s := s.dropTurn.takeOffer) hf (Nat.not_lt.1 hn)] at h
      cases h

/-- R37, R38: a running transfer is refused only by the peer's signals. -/
theorem refusalCause_of_running_step (hinv : BlockInv s) (hf : s.fsm ≠ .idle) (hu : s.nextTurn = .seq)
    (h : step s = .refused r) : RefusalCause s r := by
  rw [step_seq hu] at h
  cases hp : s.peer with
  | nil =>
    rw [seqTurn_silent (s := s.dropTurn) hf hp] at h
    cases h
  | cons p rest =>
    rw [seqTurn_transfer (s := s.dropTurn) hf hp] at h
    rcases transfer_cases (s := s.used rest) p (hinv.chunk_in_pbuf hf) hf with ⟨-, e⟩ | ⟨_, -, -, -, e⟩ | ⟨-, -, e⟩ |
      ⟨_, -, -, e⟩ | ⟨_, -, -, -, e⟩ | ⟨htx, ha, e⟩ | ⟨hrx, ha, e⟩ <;> cases e.symm.trans h
    · exact ⟨hu, htx, p, congrArg List.head? hp, ha⟩
    · exact ⟨hu, hrx, p, congrArg List.head? hp, ha⟩

/-- R156: a refused step is in the situation of its refusal, whichever agent's step it is. -/
theorem refusalCause_of_step (hinv : BlockInv s) (h : step s = .refused r) : RefusalCause s r := by
  cases hu : s.nextTurn with
  | host => exact refusalCause_of_host_step hu h
  | seq =>
    by_cases hf : s.fsm = .idle
    · exact refusalCause_of_idle_step hf hu h
    · exact refusalCause_of_running_step hinv hf hu h
  | seqReset =>
    rw [step_seqReset hu] at h
    cases h

/-- Settles O33: each situation is refused by its own operation, and each agent's step is refused in no other. -/
theorem refusalsAreExactlyTheFive : Obligations.RefusalsAreExactlyTheFive := fun _ _ hinv =>
  ⟨refusalCause_of_step hinv, fun hcause => hcause.step_eq hinv⟩

/-- The invariant holds along every run. -/
theorem run_keeps_blockInv {n : Nat} (h : BlockInv s) (e : core.run n s = .next t) : BlockInv t := by
  induction n generalizing s with
  | zero =>
    cases e
    exact h
  | succ n ih =>
    cases hs : step s with
    | next u => exact ih (step_keeps_blockInv h hs) (run_next hs ▸ e)
    | fault f => cases (run_fault hs).symm.trans e
    | refused r => cases (run_refused hs).symm.trans e

/-- Settles O34: the state reached keeps the invariant, so its next step is refused, and a run ends at its first refusal. -/
theorem refusedRunStaysRefused : Obligations.RefusedRunStaysRefused := by
  intro s t r m n hinv hrun hcause
  have hstep : step t = .refused r := hcause.step_eq (run_keeps_blockInv hinv hrun)
  calc core.run (m + n + 1) s
    _ = core.run (n + 1) t := run_add (m := n + 1) hrun
    _ = .refused r := run_refused hstep

/-! ## A reset in the step of a transfer -/

/-- Settles O40: the step of a reset does not read the peer's signals, and `applyReset` gives every register its value. -/
theorem resetBeatsTransferOutcome : Obligations.ResetBeatsTransferOutcome := by
  intro s ps hu
  rw [step_seqReset hu, step_seqReset (s := { s with peer := ps }) hu, resetDuring_eq, resetDuring_eq]
  exact ⟨rfl, _, rfl, rfl, rfl, rfl⟩

end Sys2Proof.Machine
end

section
/-! PROOFS. The statements of 70_reset_and_hazards.md. A reset abandons the running command (O41); a hanging command moves on
by nothing but a reset (O42); a running command does not read the command port (O43); a run that has ended only uses up its
turns (O59). -/

namespace Sys2Proof.Machine

variable {s t u : State} {p : PeerSignals}

/-! ## A reset abandons the command -/

/-- Settles O41: `applyReset` leaves the stream as it is, and the status port as after power-on. -/
theorem resetAbandonsCommand : Obligations.ResetAbandonsCommand := by
  intro s h
  obtain ⟨as, ps, e⟩ := h.step_eq
  exact ⟨_, e, rfl, rfl, rfl, rfl, rfl, s.statw_applyReset⟩

/-! ## A hanging command -/

theorem eq_of_streamPut_waits {b : Byte} {onOk : State → State} (ha : txAnswer p = .waits)
    (h : streamPut b p onOk s = .next t) : t = s := by
  rw [streamPut, ha] at h
  cases h
  rfl

theorem eq_of_streamGet_waits {i : Nat} {onByte : State → State} (ha : rxAnswer p = .waits)
    (h : streamGet i p onByte s = .next t) : t = s := by
  rw [streamGet, ha] at h
  cases h
  rfl

/-- R192: a transfer without an answer leaves every state as it is, also one outside the invariant. -/
theorem eq_of_transfer_silentUnder (hsilent : s.silentUnder p) (h : transfer p s = .next t) : t = s := by
  obtain ⟨htx, hrx⟩ := hsilent
  cases hf : s.fsm <;> simp only [transfer, hf] at h <;> simp only [State.txValid, State.rxReady, hf] at htx hrx
  case idle => cases h; rfl
  case txh0 => exact eq_of_streamPut_waits (htx trivial) h
  case txh1 => exact eq_of_streamPut_waits (htx trivial) h
  case txd0 => exact eq_of_streamPut_waits (htx trivial) (eq_next_of_inPbuf h)
  case txd1 => exact eq_of_streamPut_waits (htx trivial) (eq_next_of_inPbuf h)
  case rxd0 => exact eq_of_streamGet_waits (hrx trivial) (eq_next_of_inPbuf h)
  case rxd1 => exact eq_of_streamGet_waits (hrx trivial) (eq_next_of_inPbuf h)

/-- R172: the sequencer's step of a hang uses up the turn and the peer's entry, and nothing else happens. -/
theorem hanging_seq_step (hhang : s.hangs) (hu : s.nextTurn = .seq) (h : step s = .next t) :
    t = s.used s.peer.tail := by
  obtain ⟨hb, hsilent⟩ := hhang
  have hf : s.fsm ≠ .idle := s.busy_iff.1 hb
  rw [step_seq hu] at h
  cases hp : s.peer with
  | nil =>
    rw [seqTurn_silent (s := s.dropTurn) hf hp] at h
    cases h
    rw [State.dropTurn_eq_used hp, hp]
  | cons p rest =>
    rw [seqTurn_transfer (s := s.dropTurn) hf hp] at h
    exact eq_of_transfer_silentUnder (s := s.used rest) (hsilent p (by rw [hp]; exact List.mem_cons_self)) h

theorem State.nextTurn_ne_seqReset (h : Turn.seqReset ∉ s.turns) : s.nextTurn ≠ .seqReset := by
  unfold State.nextTurn
  cases hturns : s.turns with
  | nil => decide
  | cons v vs =>
    rintro rfl
    exact h (by rw [hturns]; exact List.mem_cons_self)

theorem NoReset.not_resetNow (h : NoReset s) : ¬ResetNow s := by
  obtain ⟨hhost, hturns⟩ := h
  rintro (hu | ⟨-, hh⟩)
  · exact State.nextTurn_ne_seqReset hturns hu
  · exact hhost (List.mem_of_mem_head? hh)

/-- A step of the host puts nothing new into its program. -/
theorem host_step_host_subset (hu : s.nextTurn = .host) (h : step s = .next t) : t.host ⊆ s.host := by
  rw [step_host hu] at h
  rcases hostTurn_cases h with rfl | ⟨a, rest, hh, hact⟩
  · exact List.Subset.refl _
  · have hrest : t.host = rest := by
      rcases hact with ⟨_, rfl⟩ | ⟨_, rfl⟩ | ⟨_, _, -, -, -, rfl⟩ | ⟨_, rfl⟩ | ⟨-, -, rfl⟩ | ⟨-, rfl⟩ <;> rfl
    rw [State.dropTurn_host] at hh
    rw [hrest, hh]
    exact List.subset_cons_self a rest

/-- `t` is `s` but for the ports' inputs, the host's reads, and what the host, the peer and the turns have used up. -/
def OnlyAgentsMoved (s t : State) : Prop :=
  ∃ c e as ps us log, as ⊆ s.host ∧ ps ⊆ s.peer ∧ us ⊆ s.turns ∧
    t = { s with cmdPort := c, encPort := e, host := as, peer := ps, turns := us, hostLog := log }

theorem OnlyAgentsMoved.refl (s : State) : OnlyAgentsMoved s s :=
  ⟨_, _, _, _, _, _, List.Subset.refl _, List.Subset.refl _, List.Subset.refl _, rfl⟩

theorem OnlyAgentsMoved.trans (h : OnlyAgentsMoved s t) (h' : OnlyAgentsMoved t u) : OnlyAgentsMoved s u := by
  obtain ⟨_, _, _, _, _, _, has, hps, hus, rfl⟩ := h
  obtain ⟨_, _, _, _, _, _, has', hps', hus', rfl⟩ := h'
  exact ⟨_, _, _, _, _, _, List.Subset.trans has' has, List.Subset.trans hps' hps, List.Subset.trans hus' hus, rfl⟩

/-- What is left of a peer that does not answer still does not answer. -/
theorem OnlyAgentsMoved.hangs (h : OnlyAgentsMoved s t) (hs : s.hangs) : t.hangs := by
  obtain ⟨_, _, _, _, _, _, -, hps, -, rfl⟩ := h
  exact ⟨hs.1, fun p hp => hs.2 p (hps hp)⟩

theorem OnlyAgentsMoved.noReset (h : OnlyAgentsMoved s t) (hs : NoReset s) : NoReset t := by
  obtain ⟨_, _, _, _, _, _, has, -, hus, rfl⟩ := h
  exact ⟨fun hm => hs.1 (has hm), fun hm => hs.2 (hus hm)⟩

/-- R172, R188: no agent's step but a reset reaches the block of a hang. -/
theorem hanging_step_onlyAgentsMoved (hhang : s.hangs) (hreset : NoReset s) (h : step s = .next t) :
    OnlyAgentsMoved s t := by
  cases hu : s.nextTurn with
  | seq =>
    obtain rfl := hanging_seq_step hhang hu h
    exact ⟨_, _, _, _, _, _, List.Subset.refl _, List.tail_subset _, List.tail_subset _, rfl⟩
  | host =>
    rcases host_step_cases hu h with hnow | ⟨_, _, _, hidle, -⟩ | ⟨_, _, as, _, rfl⟩
    · exact absurd hnow hreset.not_resetNow
    · exact absurd hidle (s.busy_iff.1 hhang.1)
    · have has : as ⊆ s.host := host_step_host_subset hu h
      exact ⟨_, _, _, _, _, _, has, List.Subset.refl _, List.tail_subset _, rfl⟩
  | seqReset => exact absurd hu (State.nextTurn_ne_seqReset hreset.2)

/-- What every step to a next state keeps, a run to a next state keeps. -/
theorem run_preserves {P : State → Prop} (hstep : ∀ s t, P s → step s = .next t → P t) {n : Nat} (h : P s)
    (e : core.run n s = .next t) : P t := by
  induction n generalizing s with
  | zero =>
    cases e
    exact h
  | succ n ih =>
    cases hs : step s with
    | next u => exact ih (hstep s u h hs) (run_next hs ▸ e)
    | fault f => cases (run_fault hs).symm.trans e
    | refused r => cases (run_refused hs).symm.trans e

theorem hanging_run_onlyAgentsMoved (hhang : s.hangs) (hreset : NoReset s) {n : Nat} (h : core.run n s = .next t) :
    OnlyAgentsMoved s t :=
  run_preserves (fun _ _ hmoved hstep =>
    hmoved.trans (hanging_step_onlyAgentsMoved (hmoved.hangs hhang) (hmoved.noReset hreset) hstep)) (.refl s) h

/-- Settles O42: along the run only the agents' own data move, so the block stays in its transfer, which still hangs. -/
theorem onlyResetEndsStalledCommand : Obligations.OnlyResetEndsStalledCommand := by
  intro n s t hhang hreset h
  have hmoved : OnlyAgentsMoved s t := hanging_run_onlyAgentsMoved hhang hreset h
  have ht : t.hangs := hmoved.hangs hhang
  obtain ⟨_, _, _, _, _, _, -, -, -, rfl⟩ := hmoved
  exact ⟨rfl, rfl, rfl, rfl, rfl, rfl, rfl, fun _ => rfl, rfl, ht⟩

/-! ## The command port while a command runs -/

section CommandPort

variable (c : CmdPort)

theorem State.endChunk_driveCommand (s : State) : (s.driveCommand c).endChunk = s.endChunk.driveCommand c := by
  rcases endChunk_cases s with ⟨hlast, e⟩ | ⟨hmore, e⟩
  · rw [e, State.endChunk_of_last (s := s.driveCommand c) hlast]
    rfl
  · rw [e, State.endChunk_of_not_last (s := s.driveCommand c) hmore]
    rfl

theorem streamPut_driveCommand {onOk : State → State}
    (hok : ∀ v : State, onOk (v.driveCommand c) = (onOk v).driveCommand c) (b : Byte) :
    streamPut b p onOk (s.driveCommand c) = mapNext (·.driveCommand c) (streamPut b p onOk s) := by
  unfold streamPut
  cases txAnswer p with
  | ok => exact congrArg Host.Outcome.next (hok (s.deliver b))
  | waits | err | both => rfl

theorem streamGet_driveCommand {onByte : State → State}
    (hbyte : ∀ v : State, onByte (v.driveCommand c) = (onByte v).driveCommand c) (i : Nat) :
    streamGet i p onByte (s.driveCommand c) = mapNext (·.driveCommand c) (streamGet i p onByte s) := by
  unfold streamGet
  rcases rxAnswer p with _ | (v | _ | _) | _
  case got.byte => exact congrArg Host.Outcome.next (hbyte (s.received i v))
  all_goals rfl

theorem inPbuf_driveCommand {r r' : Result} (h : r' = mapNext (·.driveCommand c) r) :
    inPbuf (s.driveCommand c) r' = mapNext (·.driveCommand c) (inPbuf s r) := by
  have hchunk : (s.driveCommand c).chunkInPbuf = s.chunkInPbuf := rfl
  unfold inPbuf
  rw [hchunk, h]
  split <;> rfl

/-- R187: no transfer reads the command port. -/
theorem transfer_driveCommand (p : PeerSignals) (s : State) :
    transfer p (s.driveCommand c) = mapNext (·.driveCommand c) (transfer p s) := by
  cases hf : s.fsm <;> simp only [transfer, State.driveCommand_fsm, hf]
  case idle => rfl
  case txh0 => exact streamPut_driveCommand c (fun _ => rfl) _
  case txh1 => exact streamPut_driveCommand c (fun _ => rfl) _
  case txd0 => exact inPbuf_driveCommand c (streamPut_driveCommand c (fun _ => rfl) _)
  case txd1 => exact inPbuf_driveCommand c (streamPut_driveCommand c (State.endChunk_driveCommand c) _)
  case rxd0 => exact inPbuf_driveCommand c (streamGet_driveCommand c (fun _ => rfl) _)
  case rxd1 => exact inPbuf_driveCommand c (streamGet_driveCommand c (State.endChunk_driveCommand c) _)

end CommandPort

/-- Settles O43: a busy sequencer looks at the peer and its latched registers, not at the command port. -/
theorem runningCommandIsLatched : Obligations.RunningCommandIsLatched := by
  intro s c hb hu
  have hf : s.fsm ≠ .idle := s.busy_iff.1 hb
  change step (s.driveCommand c) = mapNext (·.driveCommand c) (step s)
  rw [step_seq hu, step_seq (s := s.driveCommand c) hu]
  cases hp : s.peer with
  | nil =>
    rw [seqTurn_silent (s := s.dropTurn) hf hp, seqTurn_silent (s := (s.driveCommand c).dropTurn) hf hp]
    rfl
  | cons p rest =>
    rw [seqTurn_transfer (s := s.dropTurn) hf hp, seqTurn_transfer (s := (s.driveCommand c).dropTurn) hf hp]
    exact transfer_driveCommand c p (s.used rest)

/-! ## A run that has ended -/

/-- R198: with no host step left and no offer to take, a step only uses up its turn. -/
theorem ended_step (h : s.ended) (hv : s.cmdPort.valid = false) : step s = .next s.dropTurn := by
  obtain ⟨hhost, hturns, hf⟩ := h
  cases hu : s.nextTurn with
  | host => rw [step_host hu, hostTurn, State.dropTurn_host, hhost]
  | seq => rw [step_seq hu, seqTurn_idle (s := s.dropTurn) hf hv]
  | seqReset => exact absurd hu (State.nextTurn_ne_seqReset hturns)

theorem State.ended.drop_turns (h : s.ended) (n : Nat) : State.ended { s with turns := s.turns.drop n } := by
  obtain ⟨hhost, hturns, hf⟩ := h
  exact ⟨hhost, fun hm => hturns (List.mem_of_mem_drop hm), hf⟩

theorem ended_run (h : s.ended) (hv : s.cmdPort.valid = false) (n : Nat) :
    core.run n s = .next { s with turns := s.turns.drop n } := by
  induction n with
  | zero => exact run_zero s
  | succ n ih =>
    calc core.run (n + 1) s
      _ = core.run 1 { s with turns := s.turns.drop n } := run_add ih
      _ = .next (State.dropTurn { s with turns := s.turns.drop n }) := run_one (ended_step (h.drop_turns n) hv)
      _ = .next { s with turns := s.turns.drop (n + 1) } := by rw [State.dropTurn, List.tail_drop]

/-- Settles O59: the run uses up its turns, and the final observation does not depend on them. -/
theorem endedRunKeepsFinalObservation : Obligations.EndedRunKeepsFinalObservation := by
  intro n s h hv
  rw [ended_run h hv n]
  exact ⟨_, rfl, h.drop_turns n, rfl, rfl, fun _ => rfl, rfl, rfl⟩

end Sys2Proof.Machine
end
